-- ==== Sys2Proof/Word.lean ====
section
/-! DEFINITION. The byte, the unit of every memory and every data access of the block (R9, R51), and the names of
the three byte memories (R50). -/

namespace Sys2Proof

/-- A channel byte or a payload byte: 8 bits, unsigned (R9, R51). -/
abbrev Byte := BitVec 8

/-- The three byte memories, each an address space of its own (R32, R50). -/
inductive Space where
  /-- the pixel memory, PIXCAP bytes -/
  | pix
  /-- the payload memory, PAYCAP bytes -/
  | pay
  /-- the output memory, OUTCAP bytes -/
  | out
  deriving DecidableEq, Repr

end Sys2Proof
end

