-- ==== Sys2Proof/Syntax.lean ====
section
/-! DEFINITION. The commands: formats, modes and the five legal pairs of them (R16), the fields of a command word
(R80), and the 18 commands themselves (R3, R87), one constructor per row of spec/opcode_table.json. -/

namespace Sys2Proof

/-- The three pixel formats (R16, R82). -/
inductive Fmt where
  | ga | rgb | rgba
  deriving DecidableEq, Repr

/-- The two modes (R16, R83). -/
inductive Mode where
  | alpha | all
  deriving DecidableEq, Repr

/-- The five legal pairs of format and mode (R16): RGB has the mode ALL only. -/
inductive Pair where
  | gaAlpha | gaAll | rgbAll | rgbaAlpha | rgbaAll
  deriving DecidableEq, Repr

/-- The fields of a command word, format C: `00mffooo` (R80). -/
structure Fields where
  /-- bits 7:6, reserved, must be 0 -/
  rsv : BitVec 2
  /-- bit 5 -/
  mode : BitVec 1
  /-- bits 4:3 -/
  fmt : BitVec 2
  /-- bits 2:0 -/
  op : BitVec 3
  deriving DecidableEq, Repr

/-- The 18 legal commands (R87). The command word holds no operand: every operand is in a register (R85). -/
inductive Instr where
  | estimateGaAlpha
  | encodeGaAlpha
  | decodeGaAlpha
  | getbit
  | setbit
  | fixup
  | estimateRgbaAlpha
  | encodeRgbaAlpha
  | decodeRgbaAlpha
  | estimateGaAll
  | encodeGaAll
  | decodeGaAll
  | estimateRgbAll
  | encodeRgbAll
  | decodeRgbAll
  | estimateRgbaAll
  | encodeRgbaAll
  | decodeRgbaAll
  deriving DecidableEq, Repr

/-- A command as the rules of the generic codec speak of it: the operation, with the pair a codec command works on
(R81). -/
inductive Kind where
  | estimate (p : Pair)
  | encode (p : Pair)
  | decode (p : Pair)
  | getbit
  | setbit
  | fixup
  deriving DecidableEq, Repr

end Sys2Proof
end

