-- ==== Sys2Proof/WellFormed.lean ====
section
/-! DEFINITION. When the fields of a command word make a legal command: the five conditions of R86, one check each.
A command word is well formed when every check passes (R84, R86, R88). -/

namespace Sys2Proof

/-- RSV must be 0 in every command (R84). -/
def Fields.rsvZero (f : Fields) : Bool := f.rsv == 0

/-- OP is not one of the reserved codes 0 and 7 (R81). -/
def Fields.opAssigned (f : Fields) : Bool := f.op != 0 && f.op != 7

/-- OP 4, 5 and 6 are the unit commands (R81). -/
def Fields.isUnit (f : Fields) : Bool := f.op == 4 || f.op == 5 || f.op == 6

/-- A unit command has FMT and MODE 0 (R84). -/
def Fields.unitPlain (f : Fields) : Bool := !f.isUnit || (f.fmt == 0 && f.mode == 0)

/-- A codec command does not use the reserved format code 3 (R82). -/
def Fields.fmtAssigned (f : Fields) : Bool := f.isUnit || f.fmt != 3

/-- RGB has no ALPHA mode (R83). -/
def Fields.rgbAllOnly (f : Fields) : Bool := f.isUnit || !(f.fmt == 1 && f.mode == 0)

/-- The fields are those of one of the 18 legal commands (R86). -/
def Fields.wf (f : Fields) : Bool :=
  f.rsvZero && f.opAssigned && f.unitPlain && f.fmtAssigned && f.rgbAllOnly

end Sys2Proof
end

