-- ==== Sys2Proof/Decode.lean ====
section
/-! DEFINITION. The decoder of R86, total on all 256 command words and rejecting each illegal word by the name of
the condition it breaks, and the encoder written from the field tables R80 to R83. -/

namespace Sys2Proof

/-- Why a command word is Illegal: the conditions of R86 in the order it tests them. -/
inductive Illegal where
  /-- RSV is not 0 -/
  | reservedBits
  /-- OP is 0 or 7 -/
  | reservedOp
  /-- a unit command with FMT or MODE nonzero -/
  | unitFields
  /-- a codec command with FMT = 3 -/
  | reservedFormat
  /-- a codec command with FMT = RGB and MODE = ALPHA -/
  | rgbAlpha
  deriving DecidableEq, Repr

/-- What the decoder answers: a command, or Illegal with the reason. -/
inductive Decoded where
  | ok (i : Instr)
  | illegal (why : Illegal)
  deriving DecidableEq, Repr

/-- The command of a decoder's answer, if it is one. -/
def Decoded.instr? : Decoded → Option Instr
  | .ok i => some i
  | .illegal _ => none

/-- The fields of a command word (R80): OP = bits 2:0, FMT = bits 4:3, MODE = bit 5, RSV = bits 7:6. -/
def fieldsOf (c : BitVec 8) : Fields where
  rsv := c.extractLsb' 6 2
  mode := c.extractLsb' 5 1
  fmt := c.extractLsb' 3 2
  op := c.extractLsb' 0 3

/-- The command word with the given fields (R80). -/
def wordOf (f : Fields) : BitVec 8 := f.rsv ++ f.mode ++ f.fmt ++ f.op

/-- The pair of a codec command's FMT and MODE fields, where it is legal (R82, R83). -/
def pairOf (fmt : BitVec 2) (mode : BitVec 1) : Option Pair :=
  if fmt = 0 then (if mode = 0 then some .gaAlpha else some .gaAll)
  else if fmt = 1 then (if mode = 0 then none else some .rgbAll)
  else if fmt = 2 then (if mode = 0 then some .rgbaAlpha else some .rgbaAll)
  else none

/-- ESTIMATE of a pair (R87). -/
def estimateOf : Pair → Instr
  | .gaAlpha => .estimateGaAlpha
  | .gaAll => .estimateGaAll
  | .rgbAll => .estimateRgbAll
  | .rgbaAlpha => .estimateRgbaAlpha
  | .rgbaAll => .estimateRgbaAll

/-- ENCODE of a pair (R87). -/
def encodeOf : Pair → Instr
  | .gaAlpha => .encodeGaAlpha
  | .gaAll => .encodeGaAll
  | .rgbAll => .encodeRgbAll
  | .rgbaAlpha => .encodeRgbaAlpha
  | .rgbaAll => .encodeRgbaAll

/-- DECODE of a pair (R87). -/
def decodeOf : Pair → Instr
  | .gaAlpha => .decodeGaAlpha
  | .gaAll => .decodeGaAll
  | .rgbAll => .decodeRgbAll
  | .rgbaAlpha => .decodeRgbaAlpha
  | .rgbaAll => .decodeRgbaAll

/-- Decoding of the fields, in the order of R86. -/
def decodeFields (f : Fields) : Decoded :=
  if f.rsv ≠ 0 then .illegal .reservedBits
  else if f.op = 0 ∨ f.op = 7 then .illegal .reservedOp
  else if f.op = 4 ∨ f.op = 5 ∨ f.op = 6 then
    if f.fmt ≠ 0 ∨ f.mode ≠ 0 then .illegal .unitFields
    else if f.op = 4 then .ok .getbit
    else if f.op = 5 then .ok .setbit
    else .ok .fixup
  else if f.fmt = 3 then .illegal .reservedFormat
  else
    match pairOf f.fmt f.mode with
    | none => .illegal .rgbAlpha
    | some p =>
      if f.op = 1 then .ok (estimateOf p)
      else if f.op = 2 then .ok (encodeOf p)
      else .ok (decodeOf p)

/-- `decode(c)` of R86: total on all 256 command words. -/
def decode (c : BitVec 8) : Decoded := decodeFields (fieldsOf c)

/-- What a command is, as operation and pair (R81, R87). -/
def Instr.kind : Instr → Kind
  | .estimateGaAlpha => .estimate .gaAlpha
  | .encodeGaAlpha => .encode .gaAlpha
  | .decodeGaAlpha => .decode .gaAlpha
  | .getbit => .getbit
  | .setbit => .setbit
  | .fixup => .fixup
  | .estimateRgbaAlpha => .estimate .rgbaAlpha
  | .encodeRgbaAlpha => .encode .rgbaAlpha
  | .decodeRgbaAlpha => .decode .rgbaAlpha
  | .estimateGaAll => .estimate .gaAll
  | .encodeGaAll => .encode .gaAll
  | .decodeGaAll => .decode .gaAll
  | .estimateRgbAll => .estimate .rgbAll
  | .encodeRgbAll => .encode .rgbAll
  | .decodeRgbAll => .decode .rgbAll
  | .estimateRgbaAll => .estimate .rgbaAll
  | .encodeRgbaAll => .encode .rgbaAll
  | .decodeRgbaAll => .decode .rgbaAll

/-- The format of a pair (R16). -/
def Pair.fmt : Pair → Fmt
  | .gaAlpha | .gaAll => .ga
  | .rgbAll => .rgb
  | .rgbaAlpha | .rgbaAll => .rgba

/-- The mode of a pair (R16). -/
def Pair.mode : Pair → Mode
  | .gaAlpha | .rgbaAlpha => .alpha
  | .gaAll | .rgbAll | .rgbaAll => .all

/-- The FMT code of a format (R82). -/
def Fmt.code : Fmt → BitVec 2
  | .ga => 0
  | .rgb => 1
  | .rgba => 2

/-- The MODE code of a mode (R83). -/
def Mode.code : Mode → BitVec 1
  | .alpha => 0
  | .all => 1

/-- The fields of a codec command with operation code `op` (R80 to R83). -/
def codecFields (p : Pair) (op : BitVec 3) : Fields where
  rsv := 0
  mode := p.mode.code
  fmt := p.fmt.code
  op := op

/-- The fields of a unit command with operation code `op`: FMT and MODE are 0 (R84). -/
def unitFieldsOf (op : BitVec 3) : Fields where
  rsv := 0
  mode := 0
  fmt := 0
  op := op

/-- The fields of a command of a kind, by the operation codes of R81. -/
def Kind.fields : Kind → Fields
  | .estimate p => codecFields p 1
  | .encode p => codecFields p 2
  | .decode p => codecFields p 3
  | .getbit => unitFieldsOf 4
  | .setbit => unitFieldsOf 5
  | .fixup => unitFieldsOf 6

/-- The fields of a command's word. -/
def Instr.fields (i : Instr) : Fields := i.kind.fields

/-- A command is well formed when its fields are legal; the command word has no operand that could spoil it. -/
def Instr.wf (i : Instr) : Bool := i.fields.wf

/-- The command word of a command (R80 to R84). -/
def encode (i : Instr) : BitVec 8 := wordOf i.fields

/-- The command the decoder reads from a table row's word: one byte, the bits above `nbits` being 0. -/
def decodeTableWord (nbits w : Nat) : Option Instr :=
  (decode (BitVec.ofNat 8 (w % 2 ^ nbits))).instr?

end Sys2Proof
end

