-- ==== Sys2Proof/Config.lean ====
section
/-! DEFINITION. What the spec leaves open: the free values, constants without a body (the draws of the randomness
source, R34; the bytes of the memories after reset, R38), and the capacities State.reset starts with (R10, OPEN). -/

namespace Sys2Proof.Config

/-- `rnd k` is the bit the randomness source answers at position `k` of its stream: a free input under no law
(R34, U1). No body: nothing can evaluate it. -/
opaque rnd : Nat → Bool

/-- `unwritten r S a` is the byte that address `a` of memory `S` holds after the `r`-th assertion of reset until it
is written: unspecified, fixed at reset, and reading it is legal (R38, U3). No body: nothing can evaluate it. -/
opaque unwritten : Nat → Space → Nat → Byte

/-- The capacity of each memory in `State.reset`. DESIGN CHOICE (log entry 1): R10 leaves PIXCAP, PAYCAP and OUTCAP
open, any natural number below `2^64`; this is the largest. The capacities are fields of State, so every
statement over all states is a statement for every capacity. -/
def resetCap : Nat := 2 ^ 64 - 1

end Sys2Proof.Config
end

