-- ==== Sys2Proof/Machine/State.lean ====
section
/-! DEFINITION. The state: the ten registers (R21), the three byte memories (R32), what exists while a command runs
(R20, R30, R33), the two agents outside the core, host and randomness source (R12, R34), and the parameters of the
model (R10, R36); the reasons a step can stop; the state after reset (R37, R38). -/

namespace Sys2Proof.Machine

/-- The ten registers by name, numbers 0 to 9 in this order (R21). -/
inductive Reg where
  | cmd | width | height | plen | len | olen | arg | ctrl | status | result
  deriving DecidableEq, Repr

/-- A register with a value of its own width (R21): what the host writes, and what a read answers. -/
inductive RegVal where
  | cmd (v : BitVec 8)
  | width (v : BitVec 32)
  | height (v : BitVec 32)
  | plen (v : BitVec 64)
  | len (v : BitVec 64)
  | olen (v : BitVec 64)
  | arg (v : BitVec 32)
  | ctrl (v : BitVec 8)
  | status (v : BitVec 8)
  | result (v : BitVec 64)
  deriving DecidableEq, Repr

/-- What the host has read: a register (R21), a byte of a memory (R32), or a bit it has drawn itself (R285, item 9). -/
inductive Reading where
  | reg (v : RegVal)
  | mem (S : Space) (a : Nat) (v : Byte)
  | draw (d : Bool)
  deriving DecidableEq, Repr

/-- One action of the environment, the lines of a host script (R93) and the reset input (R280). `RUN` and `CLR` are
written with `wr` (Machine/HostPort.lean). -/
inductive HostAct where
  /-- `WR reg, v` -/
  | wr (v : RegVal)
  /-- `RD reg` -/
  | rd (r : Reg)
  /-- `FILL S, a, n, v` -/
  | fill (S : Space) (a n : Nat) (v : Byte)
  /-- `LOAD S, a, [v0, v1, ...]` -/
  | load (S : Space) (a : Nat) (vs : List Byte)
  /-- the host reads the byte at `a` (host access of R32) -/
  | peek (S : Space) (a : Nat)
  /-- `RND [d0, d1, ...]` -/
  | rnd (ds : List Bool)
  /-- the host itself draws from the randomness source (R285, item 9). DESIGN CHOICE (log entry 19): R93 has no line for
  it -/
  | draw
  /-- the reset input is asserted -/
  | reset
  deriving DecidableEq, Repr

/-- The descriptor: registers 0 to 6 (R19, R21 to R27). -/
structure Descriptor where
  /-- register 0, the command word (R22) -/
  cmd : BitVec 8
  /-- register 1, pixel buffer width (R23) -/
  width : BitVec 32
  /-- register 2, pixel buffer height (R23) -/
  height : BitVec 32
  /-- register 3, payload length (R24) -/
  plen : BitVec 64
  /-- register 4, requested byte count (R25) -/
  len : BitVec 64
  /-- register 5, output buffer length (R26) -/
  olen : BitVec 64
  /-- register 6, operands of the unit commands (R27) -/
  arg : BitVec 32
  deriving DecidableEq, Repr

/-- The cursor of a running ENCODE or DECODE: the payload byte and the bit that the next slot operation works on (R30),
with the output byte that DECODE is putting together (`ob` of R149; DEDUCED, log entry 11). -/
structure Cursor where
  b : Nat
  i : Nat
  ob : Byte
  deriving DecidableEq, Repr

/-- What exists while a command runs, and only then (R20 (c)): the latched descriptor (R33), and the cursor while a slot
operation is still to come (R30; DEDUCED, log entry 18). -/
structure Running where
  desc : Descriptor
  cursor : Option Cursor
  deriving DecidableEq, Repr

/-- The randomness source, an agent outside the core (R12, R34): `pos` is its position `k`, `next` the answers a
host script has fixed for the next draws (`RND` of R93). Past them it answers `Config.rnd`. -/
structure Source where
  next : List Bool
  pos : Nat
  deriving DecidableEq, Repr

/-- PIXCAP, PAYCAP and OUTCAP: parameters of the model that no step changes (R10, R36). -/
structure Caps where
  pix : Nat
  pay : Nat
  out : Nat
  deriving DecidableEq, Repr

/-- A byte memory: the bytes that have been written, by address, addresses strictly rising. An address that is not
listed has not been written since reset. -/
abbrev Memory := List Host.Cell

/-- The state of the block and of the two agents around it. -/
structure State where
  /-- registers 0 to 6 (R21). Register 7, CTRL, stores nothing (R28) -/
  desc : Descriptor
  /-- register 8, STATUS (R29) -/
  status : BitVec 8
  /-- register 9, RESULT (R31) -/
  result : BitVec 64
  /-- the pixel memory (R32) -/
  pix : Memory
  /-- the payload memory (R32) -/
  pay : Memory
  /-- the output memory (R32) -/
  out : Memory
  /-- the running command, if there is one (R20 (c), R30, R33) -/
  run : Option Running
  /-- the randomness source (R34) -/
  rnd : Source
  /-- the host: what it will do next, first action first (R93) -/
  script : List HostAct
  /-- the host: what it has read so far, oldest first -/
  seen : List Reading
  /-- how often reset has been asserted: it names the free bytes of the unwritten memory (R38) -/
  resets : Nat
  /-- the capacities of the memories (R10) -/
  caps : Caps
  deriving DecidableEq, Repr

/-- Why the machine stops with a fault. The four faults of the block itself (R251) are no such stop: each is a next
state with STATUS.STATE = FAULT. -/
inductive Fault where
  /-- A host action reads or writes an address at or beyond the memory's capacity, which does not exist (R50). Raised
  by `hostFill`, `hostLoad`, `hostPeek` (Machine/HostPort.lean). Safe: the model stops where the spec says nothing. -/
  | noSuchAddress (S : Space) (a : Nat)
  /-- STATUS.STATE is BUSY and there is no legal running command, or a cursor for a command that has no slots: no START
  leads to such a state (R20, R30, R233). Raised by `tick` (Machine/Control.lean). Safe: a stuck state. -/
  | busyWithoutCommand
  deriving DecidableEq, Repr

/-- Why the machine refuses. -/
inductive Refusal where
  /-- An instruction without a meaning, by its mnemonic. Raised by no arm of `exec`: every command has its meaning.
  Safe: the model stops. -/
  | notModelled (mnemonic : String)
  deriving DecidableEq, Repr

/-- Every descriptor register at its reset value, 0 (R37). -/
def Descriptor.reset : Descriptor where
  cmd := 0
  width := 0
  height := 0
  plen := 0
  len := 0
  olen := 0
  arg := 0

/-- The block right after reset with the given capacities (R37, R38): every register 0, no command running, nothing
written in any memory; the host with nothing to do and the source at position 0. -/
def State.resetWith (c : Caps) : State where
  desc := Descriptor.reset
  status := 0
  result := 0
  pix := []
  pay := []
  out := []
  run := none
  rnd := ⟨[], 0⟩
  script := []
  seen := []
  resets := 0
  caps := c

/-- The machine right after reset (R37). -/
def State.reset : State := State.resetWith ⟨Config.resetCap, Config.resetCap, Config.resetCap⟩

end Sys2Proof.Machine
end

