-- ==== Sys2Proof/Machine/Flags.lean ====
section
/-! DEFINITION. STATUS, register 8, which holds every flag the block has (R29): its fields, the values the rules write
to it, and the fault cause codes (R251). -/

namespace Sys2Proof.Machine

/-- The four values of STATUS.STATE (R29). -/
inductive Phase where
  | idle | busy | done | fault
  deriving DecidableEq, Repr

/-- The faults a command can raise (R251). -/
inductive Cause where
  | illegalCommand | descriptorRange | bitIndexRange | decodeLength
  deriving DecidableEq, Repr

/-- The code of a phase in STATUS bits 1:0 (R29). -/
def Phase.code : Phase → BitVec 2
  | .idle => 0
  | .busy => 1
  | .done => 2
  | .fault => 3

/-- The code of a fault in STATUS.CAUSE (R251). -/
def Cause.code : Cause → BitVec 4
  | .illegalCommand => 1
  | .descriptorRange => 2
  | .bitIndexRange => 3
  | .decodeLength => 4

/-- STATUS.STATE, bits 1:0, as one of the four phases (R29). -/
def phaseOf (status : BitVec 8) : Phase :=
  if status.extractLsb' 0 2 = 0 then .idle
  else if status.extractLsb' 0 2 = 1 then .busy
  else if status.extractLsb' 0 2 = 2 then .done
  else .fault

/-- STATUS.RVALID, bit 2 (R29). -/
def rvalidOf (status : BitVec 8) : Bool := status.getLsbD 2

/-- STATUS.CAUSE, bits 7:4 (R29). -/
def causeOf (status : BitVec 8) : BitVec 4 := status.extractLsb' 4 4

/-- The STATUS with the given fields; the reserved bit 3 is 0 (R29). -/
def mkStatus (p : Phase) (rvalid : Bool) (cause : BitVec 4) : BitVec 8 :=
  cause ++ (0 : BitVec 1) ++ BitVec.ofBool rvalid ++ p.code

/-- STATUS in state IDLE (R231, R37). -/
def statusIdle : BitVec 8 := mkStatus .idle false 0

/-- STATUS while a command runs (R230). -/
def statusBusy : BitVec 8 := mkStatus .busy false 0

/-- STATUS after a command that completed; `rvalid` says whether it left a value in RESULT (R29, R31). -/
def statusDone (rvalid : Bool) : BitVec 8 := mkStatus .done rvalid 0

/-- STATUS after a fault (R258). -/
def statusFault (c : Cause) : BitVec 8 := mkStatus .fault false c.code

/-- STATUS.STATE of a state. -/
def State.phase (s : State) : Phase := phaseOf s.status

/-- STATUS.STATE is BUSY. -/
def State.isBusy (s : State) : Bool := s.phase == .busy

end Sys2Proof.Machine
end

