-- ==== Sys2Proof/Machine/Layout.lean ====
section
/-! DEFINITION. The pixel buffer's layout (R52 to R54) and the layout descriptors of the five pairs (R140), with the two
functions defined from them: the address of a payload bit (R143) and the capacity (R144). -/

namespace Sys2Proof

/-- `NCH`, the channels per pixel of a format (R9). -/
def Fmt.nch : Fmt → Nat
  | .ga => 2
  | .rgb => 3
  | .rgba => 4

/-- The pair of a format and a mode, where it is legal (R16). -/
def pairOfNames : Fmt → Mode → Option Pair
  | .ga, .alpha => some .gaAlpha
  | .ga, .all => some .gaAll
  | .rgb, .alpha => none
  | .rgb, .all => some .rgbAll
  | .rgba, .alpha => some .rgbaAlpha
  | .rgba, .all => some .rgbaAll

/-- The default mode of a format (R92). -/
def Fmt.defaultMode : Fmt → Mode
  | .ga => .alpha
  | .rgb => .all
  | .rgba => .alpha

end Sys2Proof

namespace Sys2Proof.Machine

/-- `pixaddr(n, c) = n * NCH + c`, the PIX address of channel `c` of the pixel with linear index `n` (R52). -/
def pixAddr (nch n c : Nat) : Nat := n * nch + c

/-- The linear index of the pixel at column `x` of row `y`, row-major (R53). -/
def linearIndex (w x y : Nat) : Nat := y * w + x

/-- `ALPHACH`, the alpha channel of a format that has one (R54). PRESUMED (log entry 8): channel 3 of RGBA is the spec's
general knowledge, decision D7. -/
def alphaChannel : Fmt → Option Nat
  | .ga => some 1
  | .rgb => none
  | .rgba => some 3

/-- `NCH` of a pair (R140). -/
def nch (p : Pair) : Nat := p.fmt.nch

/-- `GP`, the pixels of a group (R140). -/
def groupPixels : Pair → Nat
  | .gaAlpha => 8
  | .gaAll => 4
  | .rgbAll => 8
  | .rgbaAlpha => 8
  | .rgbaAll => 2

/-- `GB`, the payload bytes of a group (R140, R141). -/
def groupBytes : Pair → Nat
  | .gaAlpha => 1
  | .gaAll => 1
  | .rgbAll => 3
  | .rgbaAlpha => 1
  | .rgbaAll => 1

/-- `slot(s)`: the pixel offset inside the group and the channel of the `s`-th slot (R140). -/
def slot : Pair → Nat → Nat × Nat
  | .gaAlpha, k => (k, 1)
  | .gaAll, k => (k / 2, k % 2)
  | .rgbAll, k => (k / 3, k % 3)
  | .rgbaAlpha, k => (k, 3)
  | .rgbaAll, k => (k / 4, k % 4)

/-- The linear index of the pixel that carries bit `i` of payload byte `b` (R143). -/
def slotPixel (p : Pair) (b i : Nat) : Nat :=
  b / groupBytes p * groupPixels p + (slot p (8 * (b % groupBytes p) + i)).1

/-- The channel that carries bit `i` of payload byte `b` (R143). -/
def slotChannel (p : Pair) (b i : Nat) : Nat := (slot p (8 * (b % groupBytes p) + i)).2

/-- `addr(b, i)`: the PIX address of the slot of bit `i` of payload byte `b` (R143). -/
def addr (p : Pair) (b i : Nat) : Nat := pixAddr (nch p) (slotPixel p b i) (slotChannel p b i)

/-- `cap(P) = GB * (P div GP)` (R144). -/
def capacity (p : Pair) (pixels : Nat) : Nat := groupBytes p * (pixels / groupPixels p)

end Sys2Proof.Machine
end

