-- ==== Sys2Proof/Machine/Operands.lean ====
section
/-! DEFINITION. The operands of the commands, read from the descriptor (R85), and the two bit functions of the document
(R110, R111) with the parity of a byte (R13). -/

namespace Sys2Proof.Machine

/-- The pixel count `P = WIDTH * HEIGHT`, a natural number without truncation (R23). -/
def Descriptor.pixels (d : Descriptor) : Nat := d.width.toNat * d.height.toNat

/-- ARG.BYTE, bits 7:0 (R27). -/
def Descriptor.argByte (d : Descriptor) : Byte := d.arg.extractLsb' 0 8

/-- ARG.INDEX, bits 15:8 (R27). -/
def Descriptor.argIndex (d : Descriptor) : Nat := (d.arg.extractLsb' 8 8).toNat

/-- ARG.VALUE, bit 16 (R27). -/
def Descriptor.argValue (d : Descriptor) : Bool := d.arg.getLsbD 16

/-- What ARG holds after a write: the reserved bits 31:17 are ignored and read as 0 (R27). -/
def argStored (v : BitVec 32) : BitVec 32 := v &&& 0x1FFFF#32

/-- Bit `k` of a byte, `(v div 2^k) mod 2` (R13). -/
def bit (v : Byte) (k : Nat) : Bool := v.toNat / 2 ^ k % 2 == 1

/-- The parity of a byte, `v mod 2` (R13). -/
def parity (v : Byte) : Bool := v.toNat % 2 == 1

/-- The byte with bit `k` forced to `t`: `v - get_bit(v, k) * 2^k + t * 2^k` (R111). -/
def putBit (v : Byte) (k : Nat) (t : Bool) : Byte :=
  BitVec.ofNat 8 (v.toNat - (bit v k).toNat * 2 ^ k + t.toNat * 2 ^ k)

/-- `get_bit(v, k)`; `none` is the failure BitIndexRange, for `k >= 8` (R110, R115). -/
def getBit (v : Byte) (k : Nat) : Option Bool := if 8 ≤ k then none else some (bit v k)

/-- `set_bit(v, k, t)`; `none` is the failure BitIndexRange, for `k >= 8` (R111, R115). -/
def setBit (v : Byte) (k : Nat) (t : Bool) : Option Byte := if 8 ≤ k then none else some (putBit v k t)

end Sys2Proof.Machine
end

