-- ==== Sys2Proof/Machine/Ops.lean ====
section
/-! DEFINITION. The shared operations: the memories (R51, R58), the draws (R34), fixup (R121), and the life of a command:
its acceptance at START (R230), its checks (R233), the entry of a fault (R258) and the return from it (R231, R259),
its completion (R31). -/

namespace Sys2Proof.Machine

/-! ### The memories -/

/-- The byte written at `a`; `none` where none has been written since reset. -/
def Memory.get? : Memory → Nat → Option Byte
  | [], _ => none
  | (k, v) :: m, a => if k = a then some v else Memory.get? m a

/-- The memory with `v` at `a`, every other byte as before. -/
def Memory.set : Memory → Nat → Byte → Memory
  | [], a, v => [(a, v)]
  | (k, w) :: m, a, v =>
    if k < a then (k, w) :: Memory.set m a v
    else if k = a then (a, v) :: m
    else (a, v) :: (k, w) :: m

/-- Every listed address is above `a`. -/
def Memory.above (a : Nat) (m : Memory) : Bool := m.all fun c => decide (a < c.1)

/-- The canonical form: addresses strictly rising. -/
def Memory.wf : Memory → Bool
  | [] => true
  | c :: m => Memory.above c.1 m && Memory.wf m

/-- Every listed address is an address of a memory of `n` bytes (R50). -/
def Memory.within (m : Memory) (n : Nat) : Bool := m.all fun c => decide (c.1 < n)

/-- The memory of a space. -/
def State.mem (s : State) : Space → Memory
  | .pix => s.pix
  | .pay => s.pay
  | .out => s.out

/-- The state with another memory for a space. -/
def State.setMem (s : State) (S : Space) (m : Memory) : State :=
  match S with
  | .pix => { s with pix := m }
  | .pay => { s with pay := m }
  | .out => { s with out := m }

/-- The capacity of a space (R10). -/
def Caps.of (c : Caps) : Space → Nat
  | .pix => c.pix
  | .pay => c.pay
  | .out => c.out

/-- `MemRead(S, a, 1)`: the last value written, or the unspecified reset value (R51, R58, R38). -/
def State.read (s : State) (S : Space) (a : Nat) : Byte :=
  ((s.mem S).get? a).getD (Config.unwritten s.resets S a)

/-- `MemWrite(S, a, 1, v)` (R51). -/
def State.write (s : State) (S : Space) (a : Nat) (v : Byte) : State := s.setMem S ((s.mem S).set a v)

/-! ### Loops -/

/-- `for k in 0 .. n-1`, ascending: `f 0` first, `f (n-1)` last (R15). -/
def loop {α : Type} (f : Nat → α → α) : Nat → α → α
  | 0, x => x
  | n + 1, x => f n (loop f n x)

/-! ### The randomness source and fixup -/

/-- The answer to the `j`-th draw from now on (R34): what a host script has fixed, else the free bit of the position. -/
def Source.answer (r : Source) (j : Nat) : Bool := (r.next[j]?).getD (Config.rnd (r.pos + j))

/-- The source after `n` draws. -/
def Source.skip (r : Source) (n : Nat) : Source := ⟨r.next.drop n, r.pos + n⟩

/-- `draw()`: the next bit, and the source one position on (R15, R34). -/
def Source.draw (r : Source) : Bool × Source := (r.answer 0, r.skip 1)

/-- `fixup(v, t)` with the source it may draw from, in the order of cases of R121; a draw of 1 moves up (R124). -/
def fixup (v : Byte) (t : Bool) (r : Source) : Byte × Source :=
  if parity v = t then (v, r)
  else if v = 0 then (1, r)
  else if v = 255 then (254, r)
  else if r.draw.1 then (v + 1, r.draw.2)
  else (v - 1, r.draw.2)

/-! ### The life of a command -/

/-- A START is accepted: the descriptor is latched, RESULT, RVALID and CAUSE are cleared and STATE is BUSY (R230, R33).
The cursor comes when the checks have passed (`launch`). -/
def State.accept (s : State) : State :=
  { s with run := some ⟨s.desc, none⟩, status := statusBusy, result := 0 }

/-- Fault entry: STATUS.CAUSE is the code, STATUS.STATE is FAULT, RVALID is 0, no command is running any more, and
nothing else changes; RESULT has been 0 since START (R258). -/
def State.raiseFault (s : State) (c : Cause) : State :=
  { s with run := none, status := statusFault c }

/-- The return from a fault, the CLR strobe, which also leaves DONE: IDLE, with CAUSE, RVALID and RESULT 0. In IDLE
and BUSY it changes nothing (R231, R259, U14). -/
def State.clear (s : State) : State :=
  match s.phase with
  | .done => { s with status := statusIdle, result := 0 }
  | .fault => { s with status := statusIdle, result := 0 }
  | .idle => s
  | .busy => s

/-- A command reaches its end without a value: RVALID stays 0, and RESULT stays what START made it, 0 (R31). -/
def State.complete (s : State) : State :=
  { s with run := none, status := statusDone false }

/-- A command reaches its end with a value for RESULT (R31). -/
def State.completeWith (s : State) (v : Nat) : State :=
  { s with run := none, status := statusDone true, result := BitVec.ofNat 64 v }

/-- The checks at START after the command word's own, in the order of R233: steps 2 and 3. The products are taken
without truncation (R253). -/
def startCheck (k : Kind) (d : Descriptor) (c : Caps) : Option Cause :=
  match k with
  | .estimate _ => none
  | .encode p =>
    if c.pix < d.pixels * nch p ∨ c.pay < d.plen.toNat then some .descriptorRange else none
  | .decode p =>
    if c.pix < d.pixels * nch p ∨ c.out < d.olen.toNat then some .descriptorRange
    else if d.olen.toNat < d.len.toNat then some .decodeLength
    else none
  | .getbit => if 8 ≤ d.argIndex then some .bitIndexRange else none
  | .setbit => if 8 ≤ d.argIndex then some .bitIndexRange else none
  | .fixup => none

/-- One command from its accepted START to its end, as one step (R230, R235): the descriptor is latched, the checks of
R233 are made before anything is read, written or drawn, and the first that fails is the fault; else the
command's rule runs on the latched descriptor. -/
def State.command (s : State) (k : Kind) (body : Descriptor → State → State) :
    Host.Outcome State Fault Refusal :=
  match startCheck k s.desc s.caps with
  | some c => .next (s.accept.raiseFault c)
  | none => .next (body s.desc s.accept)

end Sys2Proof.Machine
end

