-- ==== Sys2Proof/Machine/BitUtilities.lean ====
section
/-! DEFINITION. The unit commands GETBIT and SETBIT (R112, R113). -/

namespace Sys2Proof.Machine

/-- The body of GETBIT on a latched descriptor (R112). -/
def getbitBody (d : Descriptor) (s : State) : State :=
  match getBit d.argByte d.argIndex with
  | some t => s.completeWith t.toNat
  | none => s.raiseFault .bitIndexRange

/-- The body of SETBIT on a latched descriptor (R113). -/
def setbitBody (d : Descriptor) (s : State) : State :=
  match setBit d.argByte d.argIndex d.argValue with
  | some v => s.completeWith v.toNat
  | none => s.raiseFault .bitIndexRange

/-- GETBIT, 0x04 (R112). -/
def execGetbit (s : State) : Host.Outcome State Fault Refusal := s.command .getbit getbitBody

/-- SETBIT, 0x05 (R113). -/
def execSetbit (s : State) : Host.Outcome State Fault Refusal := s.command .setbit setbitBody

end Sys2Proof.Machine
end

