-- ==== Sys2Proof/Machine/Codec.lean ====
section
/-! DEFINITION. The generic codec (R140 to R158): ESTIMATE, ENCODE and DECODE of any pair, from its layout descriptor.
The commands of the five pairs are these with the pair filled in. -/

namespace Sys2Proof.Machine

/-- `n_enc = min(PLEN, cap(P))`: the payload bytes an ENCODE writes (R146). -/
def nEnc (p : Pair) (d : Descriptor) : Nat := min d.plen.toNat (capacity p d.pixels)

/-- `n_dec = min(LEN, cap(P))`: the bytes a DECODE produces (R148). -/
def nDec (p : Pair) (d : Descriptor) : Nat := min d.len.toNat (capacity p d.pixels)

/-- The payload bytes a command works on: `n_enc` of an ENCODE, `n_dec` of a DECODE, none for the others (R234). -/
def workBytes (k : Kind) (d : Descriptor) : Nat :=
  match k with
  | .estimate _ => 0
  | .encode p => nEnc p d
  | .decode p => nDec p d
  | .getbit => 0
  | .setbit => 0
  | .fixup => 0

/-- One slot of ENCODE: bit `i` of payload byte `b`, whose value is `pb`, goes to its channel by fixup (R147). -/
def encodeSlot (p : Pair) (b : Nat) (pb : Byte) (i : Nat) (s : State) : State :=
  let r := fixup (s.read .pix (addr p b i)) (bit pb i) s.rnd
  { s.write .pix (addr p b i) r.1 with rnd := r.2 }

/-- Payload byte `b` of ENCODE: its eight slots, bit 0 first (R147). -/
def encodeByte (p : Pair) (b : Nat) (s : State) : State :=
  loop (encodeSlot p b (s.read .pay b)) 8 s

/-- The first `n` payload bytes of ENCODE, ascending (R147). -/
def encodeBytes (p : Pair) (n : Nat) (s : State) : State := loop (encodeByte p) n s

/-- One slot of DECODE: the parity of the channel becomes bit `i` of the output byte `ob` (R149). -/
def decodeSlot (s : State) (p : Pair) (b : Nat) (i : Nat) (ob : Byte) : Byte :=
  putBit ob i (parity (s.read .pix (addr p b i)))

/-- The output byte that DECODE reads from the eight slots of byte `b` (R149). -/
def decodedByte (s : State) (p : Pair) (b : Nat) : Byte := loop (decodeSlot s p b) 8 0

/-- Output byte `b` of DECODE, read and written (R149). -/
def decodeByte (p : Pair) (b : Nat) (s : State) : State := s.write .out b (decodedByte s p b)

/-- The first `n` output bytes of DECODE, ascending (R149). -/
def decodeBytes (p : Pair) (n : Nat) (s : State) : State := loop (decodeByte p) n s

/-! The slots of a codec command in any order (R68): slot `k` is bit `k mod 8` of payload byte `k div 8`. ENCODE and DECODE
themselves go through `0, 1, 2, ...` (R147, R149). -/

/-- The slot operations of ENCODE, one after another in the order of the list, each with the next draw where it takes
one (R68). -/
def encodeInOrder (p : Pair) : List Nat → State → State
  | [], s => s
  | k :: ks, s => encodeInOrder p ks (encodeSlot p (k / 8) (s.read .pay (k / 8)) (k % 8) s)

/-- The slot operations of DECODE in the order of the list, each putting its bit straight into the byte of OUT that it
belongs to (R68; DEDUCED, log entry 17). -/
def decodeInOrder (p : Pair) : List Nat → State → State
  | [], s => s
  | k :: ks, s => decodeInOrder p ks (s.write .out (k / 8) (decodeSlot s p (k / 8) (k % 8) (s.read .out (k / 8))))

/-- ESTIMATE, generic (R145). -/
def estimateWith (p : Pair) (s : State) : Host.Outcome State Fault Refusal :=
  s.command (.estimate p) fun d s' => s'.completeWith (capacity p d.pixels)

/-- ENCODE, generic (R147). -/
def encodeWith (p : Pair) (s : State) : Host.Outcome State Fault Refusal :=
  s.command (.encode p) fun d s' => (encodeBytes p (nEnc p d) s').complete

/-- DECODE, generic (R149). -/
def decodeWith (p : Pair) (s : State) : Host.Outcome State Fault Refusal :=
  s.command (.decode p) fun d s' => (decodeBytes p (nDec p d) s').complete

end Sys2Proof.Machine
end

