-- ==== Sys2Proof/Machine/CodecGa.lean ====
section
/-! DEFINITION. The grayscale+alpha codec's commands (R170 to R177): the generic codec with the pair filled in. -/

namespace Sys2Proof.Machine

/-- ESTIMATE.GA.ALPHA, 0x01 (R170). -/
def execEstimateGaAlpha (s : State) : Host.Outcome State Fault Refusal := estimateWith .gaAlpha s

/-- ENCODE.GA.ALPHA, 0x02 (R171). -/
def execEncodeGaAlpha (s : State) : Host.Outcome State Fault Refusal := encodeWith .gaAlpha s

/-- DECODE.GA.ALPHA, 0x03 (R172). -/
def execDecodeGaAlpha (s : State) : Host.Outcome State Fault Refusal := decodeWith .gaAlpha s

/-- ESTIMATE.GA.ALL, 0x21 (R173). -/
def execEstimateGaAll (s : State) : Host.Outcome State Fault Refusal := estimateWith .gaAll s

/-- ENCODE.GA.ALL, 0x22 (R174). -/
def execEncodeGaAll (s : State) : Host.Outcome State Fault Refusal := encodeWith .gaAll s

/-- DECODE.GA.ALL, 0x23 (R175). -/
def execDecodeGaAll (s : State) : Host.Outcome State Fault Refusal := decodeWith .gaAll s

end Sys2Proof.Machine
end

