-- ==== Sys2Proof/Machine/CodecRgb.lean ====
section
/-! DEFINITION. The 3-channel color codec's commands (R190 to R194): the generic codec with the pair filled in. -/

namespace Sys2Proof.Machine

/-- ESTIMATE.RGB.ALL, 0x29 (R190). -/
def execEstimateRgbAll (s : State) : Host.Outcome State Fault Refusal := estimateWith .rgbAll s

/-- ENCODE.RGB.ALL, 0x2A (R191). -/
def execEncodeRgbAll (s : State) : Host.Outcome State Fault Refusal := encodeWith .rgbAll s

/-- DECODE.RGB.ALL, 0x2B (R192). -/
def execDecodeRgbAll (s : State) : Host.Outcome State Fault Refusal := decodeWith .rgbAll s

end Sys2Proof.Machine
end

