-- ==== Sys2Proof/Machine/CodecRgba.lean ====
section
/-! DEFINITION. The 4-channel color codec's commands (R210 to R217): the generic codec with the pair filled in. -/

namespace Sys2Proof.Machine

/-- ESTIMATE.RGBA.ALPHA, 0x11 (R210). -/
def execEstimateRgbaAlpha (s : State) : Host.Outcome State Fault Refusal := estimateWith .rgbaAlpha s

/-- ENCODE.RGBA.ALPHA, 0x12 (R211). -/
def execEncodeRgbaAlpha (s : State) : Host.Outcome State Fault Refusal := encodeWith .rgbaAlpha s

/-- DECODE.RGBA.ALPHA, 0x13 (R212). -/
def execDecodeRgbaAlpha (s : State) : Host.Outcome State Fault Refusal := decodeWith .rgbaAlpha s

/-- ESTIMATE.RGBA.ALL, 0x31 (R213). -/
def execEstimateRgbaAll (s : State) : Host.Outcome State Fault Refusal := estimateWith .rgbaAll s

/-- ENCODE.RGBA.ALL, 0x32 (R214). -/
def execEncodeRgbaAll (s : State) : Host.Outcome State Fault Refusal := encodeWith .rgbaAll s

/-- DECODE.RGBA.ALL, 0x33 (R215). -/
def execDecodeRgbaAll (s : State) : Host.Outcome State Fault Refusal := decodeWith .rgbaAll s

end Sys2Proof.Machine
end

