-- ==== Sys2Proof/Machine/ParityFixup.lean ====
section
/-! DEFINITION. The unit command FIXUP (R126). -/

namespace Sys2Proof.Machine

/-- The body of FIXUP on a latched descriptor: ARG.BYTE adjusted to the parity ARG.VALUE, with at most one draw
(R126). -/
def fixupBody (d : Descriptor) (s : State) : State :=
  let r := fixup d.argByte d.argValue s.rnd
  { s with rnd := r.2 }.completeWith r.1.toNat

/-- FIXUP, 0x06 (R126). -/
def execFixup (s : State) : Host.Outcome State Fault Refusal := s.command .fixup fixupBody

end Sys2Proof.Machine
end

