-- ==== Sys2Proof/Machine/Dispatch.lean ====
section
/-! DEFINITION. One arm per command: what one accepted START of the command does (R230, R235). -/

namespace Sys2Proof.Machine

/-- One command, from an accepted START to DONE or FAULT. -/
def exec (i : Instr) (s : State) : Host.Outcome State Fault Refusal :=
  match i with
  | .estimateGaAlpha => Sys2Proof.Machine.execEstimateGaAlpha s
  | .encodeGaAlpha => Sys2Proof.Machine.execEncodeGaAlpha s
  | .decodeGaAlpha => Sys2Proof.Machine.execDecodeGaAlpha s
  | .getbit => Sys2Proof.Machine.execGetbit s
  | .setbit => Sys2Proof.Machine.execSetbit s
  | .fixup => Sys2Proof.Machine.execFixup s
  | .estimateRgbaAlpha => Sys2Proof.Machine.execEstimateRgbaAlpha s
  | .encodeRgbaAlpha => Sys2Proof.Machine.execEncodeRgbaAlpha s
  | .decodeRgbaAlpha => Sys2Proof.Machine.execDecodeRgbaAlpha s
  | .estimateGaAll => Sys2Proof.Machine.execEstimateGaAll s
  | .encodeGaAll => Sys2Proof.Machine.execEncodeGaAll s
  | .decodeGaAll => Sys2Proof.Machine.execDecodeGaAll s
  | .estimateRgbAll => Sys2Proof.Machine.execEstimateRgbAll s
  | .encodeRgbAll => Sys2Proof.Machine.execEncodeRgbAll s
  | .decodeRgbAll => Sys2Proof.Machine.execDecodeRgbAll s
  | .estimateRgbaAll => Sys2Proof.Machine.execEstimateRgbaAll s
  | .encodeRgbaAll => Sys2Proof.Machine.execEncodeRgbaAll s
  | .decodeRgbaAll => Sys2Proof.Machine.execDecodeRgbaAll s

end Sys2Proof.Machine
end

