-- ==== Sys2Proof/Machine/Control.lean ====
section
/-! DEFINITION. Command control: the START and CLR strobes (R230, R231, R237), and the same command at the grain of one
slot operation a step, from the latched descriptor and the cursor (R30, R33, R147, R234). -/

namespace Sys2Proof.Machine

/-- START: in IDLE and DONE the command word is checked first and then the command runs to its end; in BUSY and FAULT
START is ignored (R230, R233, R252). -/
def start (s : State) : Host.Outcome State Fault Refusal :=
  match s.phase with
  | .idle | .done =>
    match decode s.desc.cmd with
    | .illegal _ => .next (s.accept.raiseFault .illegalCommand)
    | .ok i => exec i s
  | .busy | .fault => .next s

/-- A write to CTRL: bit 1 is CLR, bit 0 is START, CLR first; bits 7:2 are ignored and nothing is stored (R28, R230,
R231, R237). -/
def strobe (v : BitVec 8) (s : State) : Host.Outcome State Fault Refusal :=
  let s' := if v.getLsbD 1 then s.clear else s
  if v.getLsbD 0 then start s' else .next s'

/-- The cursor at START: on slot `(0, 0)`, where the command has `n` payload bytes to work on and `n` is not 0 (R30). -/
def Cursor.first (n : Nat) : Option Cursor := if n = 0 then none else some ⟨0, 0, 0⟩

/-- The cursor one slot on: `i` first and then `b`, which stays below `n`; past the last slot there is none (R30, R147). -/
def Cursor.next (n : Nat) (c : Cursor) : Option Cursor :=
  if c.i < 7 then some { c with i := c.i + 1 }
  else if c.b + 1 < n then some ⟨c.b + 1, 0, 0⟩
  else none

/-- An accepted START up to the command's first move: FAULT where a check of R233 fails, else BUSY with the descriptor
latched and the cursor on the first slot (R230, R232, R30). -/
def launch (s : State) : State :=
  match decode s.desc.cmd with
  | .illegal _ => s.accept.raiseFault .illegalCommand
  | .ok i =>
    match startCheck i.kind s.desc s.caps with
    | some c => s.accept.raiseFault c
    | none => { s.accept with run := some ⟨s.desc, Cursor.first (workBytes i.kind s.desc)⟩ }

/-- One slot operation of a running ENCODE (R147). -/
def tickEncode (p : Pair) (d : Descriptor) (c : Cursor) (s : State) : State :=
  { encodeSlot p c.b (s.read .pay c.b) c.i s with run := some ⟨d, c.next (nEnc p d)⟩ }

/-- One slot operation of a running DECODE: the eighth slot of a byte writes the byte (R149). -/
def tickDecode (p : Pair) (d : Descriptor) (c : Cursor) (s : State) : State :=
  let ob := decodeSlot s p c.b c.i c.ob
  let s' := if c.i < 7 then s else s.write .out c.b ob
  { s' with run := some ⟨d, Cursor.next (nDec p d) { c with ob := ob }⟩ }

/-- The end of a command that has no slot operation left: the value it answers, if it answers one, and DONE (R230,
R31). -/
def endCommand (k : Kind) (d : Descriptor) (s : State) : State :=
  match k with
  | .estimate p => s.completeWith (capacity p d.pixels)
  | .encode _ => s.complete
  | .decode _ => s.complete
  | .getbit => getbitBody d s
  | .setbit => setbitBody d s
  | .fixup => fixupBody d s

/-- The core's next move while a command runs, from the latched descriptor and the cursor: a slot operation, or the
command's end (R234). A BUSY state without a legal running command, or with a cursor for a command that has no slots,
is stuck: no START leads to one (log entry 10). -/
def tick (s : State) : Host.Outcome State Fault Refusal :=
  match s.run with
  | none => .fault .busyWithoutCommand
  | some r =>
    match decode r.desc.cmd with
    | .illegal _ => .fault .busyWithoutCommand
    | .ok i =>
      match r.cursor with
      | none => .next (endCommand i.kind r.desc s)
      | some c =>
        match i.kind with
        | .encode p => .next (tickEncode p r.desc c s)
        | .decode p => .next (tickDecode p r.desc c s)
        | .estimate _ => .fault .busyWithoutCommand
        | .getbit => .fault .busyWithoutCommand
        | .setbit => .fault .busyWithoutCommand
        | .fixup => .fault .busyWithoutCommand

end Sys2Proof.Machine
end

