-- ==== Sys2Proof/Machine/HostPort.lean ====
section
/-! DEFINITION. The host's side: reading and writing registers and memories (R21, R32), the reset input (R280), and one
action of a host script (R93), in the turns the ownership rule leaves the host (R62). -/

namespace Sys2Proof.Machine

/-- A read of a register: what the host sees (R21). CTRL reads as 0 (R28). -/
def readReg (s : State) : Reg → RegVal
  | .cmd => .cmd s.desc.cmd
  | .width => .width s.desc.width
  | .height => .height s.desc.height
  | .plen => .plen s.desc.plen
  | .len => .len s.desc.len
  | .olen => .olen s.desc.olen
  | .arg => .arg s.desc.arg
  | .ctrl => .ctrl 0
  | .status => .status s.status
  | .result => .result s.result

/-- A host write to a register: registers 0 to 6 take the value (R21 to R27), CTRL strobes (R28), and a write to the
read-only registers STATUS and RESULT is ignored (R21). -/
def writeReg (v : RegVal) (s : State) : Host.Outcome State Fault Refusal :=
  match v with
  | .cmd v => .next { s with desc := { s.desc with cmd := v } }
  | .width v => .next { s with desc := { s.desc with width := v } }
  | .height v => .next { s with desc := { s.desc with height := v } }
  | .plen v => .next { s with desc := { s.desc with plen := v } }
  | .len v => .next { s with desc := { s.desc with len := v } }
  | .olen v => .next { s with desc := { s.desc with olen := v } }
  | .arg v => .next { s with desc := { s.desc with arg := argStored v } }
  | .ctrl v => strobe v s
  | .status _ => .next s
  | .result _ => .next s

/-- The state with the bytes `vs` at `a`, `a + 1`, and so on. -/
def State.writeList (s : State) (S : Space) (a : Nat) : List Byte → State
  | [] => s
  | v :: vs => (s.write S a v).writeList S (a + 1) vs

/-- The host writes the bytes `vs` from address `a` on; an address at or beyond the capacity does not exist (R50,
log entry 9). -/
def hostLoad (S : Space) (a : Nat) (vs : List Byte) (s : State) : Host.Outcome State Fault Refusal :=
  if vs = [] ∨ a + vs.length ≤ s.caps.of S then .next (s.writeList S a vs)
  else .fault (.noSuchAddress S (max a (s.caps.of S)))

/-- The host writes the byte `v` to `n` addresses from `a` on (R93). -/
def hostFill (S : Space) (a n : Nat) (v : Byte) (s : State) : Host.Outcome State Fault Refusal :=
  if n = 0 ∨ a + n ≤ s.caps.of S then .next (s.writeList S a (List.replicate n v))
  else .fault (.noSuchAddress S (max a (s.caps.of S)))

/-- The host reads the byte at `a` (R32, R58). -/
def hostPeek (S : Space) (a : Nat) (s : State) : Host.Outcome State Fault Refusal :=
  if a < s.caps.of S then .next { s with seen := s.seen ++ [.mem S a (s.read S a)] }
  else .fault (.noSuchAddress S a)

/-- The reset input is asserted: every register takes its reset value, no command is running, and the source is not
touched (R280, R37, R34). The memories are unspecified afterwards, fresh free bytes (R38); a running command is
abandoned and the memories keep what it has written (R39). -/
def State.assertReset (s : State) : State :=
  if s.isBusy then
    { s with desc := Descriptor.reset, status := 0, result := 0, run := none }
  else
    { s with desc := Descriptor.reset, status := 0, result := 0, run := none, pix := [], pay := [], out := []
             resets := s.resets + 1 }

/-- One action of the host script (R93), or the host's own draw (R285, item 9; log entry 19). -/
def hostAct (a : HostAct) (s : State) : Host.Outcome State Fault Refusal :=
  match a with
  | .wr v => writeReg v s
  | .rd r => .next { s with seen := s.seen ++ [.reg (readReg s r)] }
  | .fill S a n v => hostFill S a n v s
  | .load S a vs => hostLoad S a vs s
  | .peek S a => hostPeek S a s
  | .rnd ds => .next { s with rnd := { s.rnd with next := ds } }
  | .draw => .next { s with rnd := s.rnd.draw.2, seen := s.seen ++ [.draw s.rnd.draw.1] }
  | .reset => .next s.assertReset

/-- `RUN i`: the command word is written and START strobed (R93). One step runs the command, so the wait that follows
is over at once (R235). -/
def runScript (i : Instr) : List HostAct := [.wr (.cmd (encode i)), .wr (.ctrl 0x01)]

/-- `CLR`: the CLR strobe (R93). -/
def clrAct : HostAct := .wr (.ctrl 0x02)

/-- The host has the turn: its next action, or, when it has none, the block waits for it (R268, R281). -/
def hostTurn (s : State) : Host.Outcome State Fault Refusal :=
  match s.script with
  | [] => .next s
  | a :: rest => hostAct a { s with script := rest }

/-- While BUSY the core has the turn (R62), but for what can land between slot operations: the host's read of STATUS
(R62), a write to CTRL, whose strobes BUSY ignores (R230, R232, U14), and the reset input (R39). Every other action of
the host waits. DEDUCED (log entry 7). -/
def busyTurn (s : State) : Host.Outcome State Fault Refusal :=
  match s.script with
  | .rd .status :: rest => hostAct (.rd .status) { s with script := rest }
  | .wr (.ctrl v) :: rest => hostAct (.wr (.ctrl v)) { s with script := rest }
  | .reset :: rest => hostAct .reset { s with script := rest }
  | _ => tick s

end Sys2Proof.Machine
end

