-- ==== Sys2Proof/Machine/Step.lean ====
section
/-! DEFINITION. One step of the machine: the agent that has the turn moves (R12, R62, R235). -/

namespace Sys2Proof.Machine

/-- One step. While STATE is BUSY the core moves, else the host; a START by the host runs its command to the end in the
same step (R235), so a run from reset never shows BUSY between steps. -/
def step (s : State) : Host.Outcome State Fault Refusal :=
  if s.isBusy then busyTurn s else hostTurn s

/-- The state in which the very next step runs the command word `w`: CMD holds it and the host's next action is the
START strobe, with CLR before it where the block is in FAULT, which START alone does not leave (R230, R237). A block
that is BUSY is first brought to IDLE with no command running. -/
def State.withFetchWord (s : State) (nbits w : Nat) : State :=
  let s' := { s with desc := { s.desc with cmd := BitVec.ofNat 8 (w % 2 ^ nbits) } }
  match s.phase with
  | .idle | .done => { s' with script := .wr (.ctrl 0x01) :: s.script }
  | .fault => { s' with script := .wr (.ctrl 0x03) :: s.script }
  | .busy => { s' with script := .wr (.ctrl 0x01) :: s.script, status := statusIdle, run := none }

end Sys2Proof.Machine
end

