-- ==== Sys2Proof/Machine/Assembler.lean ====
section
/-! DEFINITION. The assembler syntax, which is the host's and not the hardware's (R90 to R92): a mnemonic as text to the
command it stands for, with the mode tokens (R91) and the default modes (R92). Text is a list of characters. -/

namespace Sys2Proof.Machine

/-- The words between the dots of a mnemonic (R90). -/
def splitDots : List Char → List (List Char)
  | [] => [[]]
  | c :: cs =>
    if c = '.' then [] :: splitDots cs
    else
      match splitDots cs with
      | [] => [[c]]
      | w :: ws => (c :: w) :: ws

/-- The command of an operation name and a pair (R90). -/
def codecNamed (w : List Char) (p : Pair) : Option Instr :=
  if w = ['E', 'S', 'T', 'I', 'M', 'A', 'T', 'E'] then some (estimateOf p)
  else if w = ['E', 'N', 'C', 'O', 'D', 'E'] then some (encodeOf p)
  else if w = ['D', 'E', 'C', 'O', 'D', 'E'] then some (decodeOf p)
  else none

/-- The unit command of a name (R90). -/
def unitNamed (w : List Char) : Option Instr :=
  if w = ['G', 'E', 'T', 'B', 'I', 'T'] then some .getbit
  else if w = ['S', 'E', 'T', 'B', 'I', 'T'] then some .setbit
  else if w = ['F', 'I', 'X', 'U', 'P'] then some .fixup
  else none

/-- The format of a name (R90). -/
def fmtNamed (w : List Char) : Option Fmt :=
  if w = ['G', 'A'] then some .ga
  else if w = ['R', 'G', 'B'] then some .rgb
  else if w = ['R', 'G', 'B', 'A'] then some .rgba
  else none

/-- The mode token table (R91): `alpha` for GA and RGBA, `all` for every format, `each` an alias of `all` for RGBA. Any
other token is rejected. -/
def modeToken (f : Fmt) (w : List Char) : Option Mode :=
  if w = ['A', 'L', 'P', 'H', 'A'] then (if f = .rgb then none else some .alpha)
  else if w = ['A', 'L', 'L'] then some .all
  else if w = ['E', 'A', 'C', 'H'] then (if f = .rgba then some .all else none)
  else none

/-- The command a mnemonic stands for, case-insensitive (R90); without a mode token the format's default mode applies
(R92). -/
def assemble (text : List Char) : Option Instr :=
  match splitDots (text.map Char.toUpper) with
  | [w] => unitNamed w
  | [o, f] => (fmtNamed f).bind fun f => (pairOfNames f f.defaultMode).bind fun p => codecNamed o p
  | [o, f, m] =>
    (fmtNamed f).bind fun f => (modeToken f m).bind fun m => (pairOfNames f m).bind fun p => codecNamed o p
  | _ => none

end Sys2Proof.Machine
end

