-- ==== Sys2Proof/Safety.lean ====
section
/-! DEFINITION. The terms the claims use: the invariant of the machine, and the slots of one ENCODE in the order it
visits them, with the draw each of them receives (R147, R157). -/

namespace Sys2Proof.Machine

/-! ### The invariant -/

/-- STATUS is one the rules can write: bit 3 is 0, CAUSE is 0 to 4 and nonzero exactly in FAULT (R251, U8), RVALID only
in DONE, and RESULT is 0 where RVALID is 0 (R29, R31). -/
def State.statusOk (s : State) : Bool :=
  !s.status.getLsbD 3 && decide ((causeOf s.status).toNat ≤ 4) && (causeOf s.status != 0) == (s.phase == .fault) &&
    (!rvalidOf s.status || s.phase == .done) && (rvalidOf s.status || s.result == 0)

/-- The reserved bits 31:17 of ARG read as 0 (R27). -/
def Descriptor.argOk (d : Descriptor) : Bool := decide (d.arg.toNat < 2 ^ 17)

/-- A memory has its canonical form and lists only addresses that exist (R50). -/
def Memory.ok (m : Memory) (cap : Nat) : Bool := m.wf && m.within cap

/-- Every memory is in order. -/
def State.memOk (s : State) : Bool := s.pix.ok s.caps.pix && s.pay.ok s.caps.pay && s.out.ok s.caps.out

/-- The capacities are below `2^64` (R10). -/
def Caps.ok (c : Caps) : Bool := decide (c.pix < 2 ^ 64) && decide (c.pay < 2 ^ 64) && decide (c.out < 2 ^ 64)

/-- The cursor, where there is one, is on a slot of the command's work: `b` stays below `min(length, capacity)` and `i` is
0 to 7 (R30). -/
def Running.cursorOk (r : Running) (k : Kind) : Bool :=
  match r.cursor with
  | none => true
  | some c => decide (c.i ≤ 7) && decide (c.b < workBytes k r.desc)

/-- A running command is a legal one that has passed its checks (R233), with its cursor in range (R30). -/
def Running.ok (r : Running) (c : Caps) : Bool :=
  match decode r.desc.cmd with
  | .illegal _ => false
  | .ok i => startCheck i.kind r.desc c == none && r.desc.argOk && r.cursorOk i.kind

/-- A command is running exactly while STATE is BUSY (R20). -/
def State.runOk (s : State) : Bool :=
  match s.run with
  | none => !s.isBusy
  | some r => s.isBusy && r.ok s.caps

/-- The invariant of the machine. -/
def State.inv (s : State) : Bool := s.statusOk && s.desc.argOk && s.memOk && s.caps.ok && s.runOk

/-! ### The slots of one ENCODE, in the order it visits them (R147): slot `k` is bit `k mod 8` of byte `k div 8` -/

/-- The PIX address of the `k`-th slot. -/
def slotAddr (p : Pair) (k : Nat) : Nat := addr p (k / 8) (k % 8)

/-- The channel value the `k`-th slot holds in a state. -/
def slotValue (p : Pair) (s : State) (k : Nat) : Byte := s.read .pix (slotAddr p k)

/-- The payload bit for the `k`-th slot. -/
def slotBit (s : State) (k : Nat) : Bool := bit (s.read .pay (k / 8)) (k % 8)

/-- A channel that has the wrong parity and can move both ways: the case of fixup that takes a draw (R123). -/
def interiorMismatch (v : Byte) (t : Bool) : Bool := parity v != t && v != 0 && v != 255

/-- How many of the first `k` slots take a draw (R157). -/
def drawsBefore (p : Pair) (s : State) : Nat → Nat
  | 0 => 0
  | k + 1 => drawsBefore p s k + (interiorMismatch (slotValue p s k) (slotBit s k)).toNat

/-- How many draws the slots before slot `k` take, when the slots are visited in the order of the list: the number of the
draw slot `k` receives, if it takes one (R68). -/
def drawsInOrder (p : Pair) (s : State) : List Nat → Nat → Nat
  | [], _ => 0
  | j :: ks, k =>
    if j = k then 0 else (interiorMismatch (slotValue p s j) (slotBit s j)).toNat + drawsInOrder p s ks k

/-- The value of fixup when the draw, if it takes one, is `d` (R128). -/
def fixupValue (v : Byte) (t d : Bool) : Byte :=
  if parity v = t then v
  else if v = 0 then 1
  else if v = 255 then 254
  else if d then v + 1
  else v - 1

/-- `n` moves of the core while BUSY, stopping where it does not go on. -/
def ticks : Nat → State → Host.Outcome State Fault Refusal
  | 0, s => .next s
  | n + 1, s =>
    match tick s with
    | .next t => ticks n t
    | .fault f => .fault f
    | .refused r => .refused r

end Sys2Proof.Machine
end

