-- ==== Sys2Proof/Certificates/Slice0/Obligations.lean ====
section
/-! DEFINITION. The statements about the STAG core, from the numbered rules of spec/. A state in `phase` IDLE or DONE is one
in which a START is accepted (R230); `exec i s` is one accepted START of the command `i`. -/

namespace Sys2Proof.Machine

/-- The opcode map of R87. -/
def opcodeMap : List (BitVec 8 × Instr) :=
  [(0x01, .estimateGaAlpha), (0x02, .encodeGaAlpha), (0x03, .decodeGaAlpha),
   (0x04, .getbit), (0x05, .setbit), (0x06, .fixup),
   (0x11, .estimateRgbaAlpha), (0x12, .encodeRgbaAlpha), (0x13, .decodeRgbaAlpha),
   (0x21, .estimateGaAll), (0x22, .encodeGaAll), (0x23, .decodeGaAll),
   (0x29, .estimateRgbAll), (0x2A, .encodeRgbAll), (0x2B, .decodeRgbAll),
   (0x31, .estimateRgbaAll), (0x32, .encodeRgbaAll), (0x33, .decodeRgbaAll)]

/-- The state after a command that answered the number `n` and did nothing else: RESULT holds `n`, STATUS is DONE with
RVALID = 1, and no command is running. -/
def answered (s : State) (n : Nat) : State :=
  { s with run := none, status := 0x06, result := BitVec.ofNat 64 n }

/-- The state after a command that faulted with the STATUS `st`: RESULT is 0, no command is running, and everything
else is as it was. -/
def faulted (s : State) (st : BitVec 8) : State := { s with run := none, status := st, result := 0 }

/-- The range check of ENCODE passes (R253). -/
abbrev EncodeFits (p : Pair) (s : State) : Prop :=
  s.desc.width.toNat * s.desc.height.toNat * nch p ≤ s.caps.pix ∧ s.desc.plen.toNat ≤ s.caps.pay

/-- The range check of DECODE passes (R253). -/
abbrev DecodeFits (p : Pair) (s : State) : Prop :=
  s.desc.width.toNat * s.desc.height.toNat * nch p ≤ s.caps.pix ∧ s.desc.olen.toNat ≤ s.caps.out

/-- ARG's operands as numbers: BYTE, INDEX and VALUE (R27). -/
abbrev argNumbers (s : State) : Nat × Nat × Nat :=
  (s.desc.arg.toNat % 256, s.desc.arg.toNat / 256 % 256, s.desc.arg.toNat / 65536 % 2)

/-- Two descriptors agree on the operands of a command (R85); of WIDTH and HEIGHT only the product counts (R23). -/
abbrev SameOperands (k : Kind) (d e : Descriptor) : Prop :=
  match k with
  | .estimate _ => d.pixels = e.pixels
  | .encode _ => d.pixels = e.pixels ∧ d.plen = e.plen
  | .decode _ => d.pixels = e.pixels ∧ d.len = e.len ∧ d.olen = e.olen
  | .getbit => d.argByte = e.argByte ∧ d.argIndex = e.argIndex
  | .setbit => d.argByte = e.argByte ∧ d.argIndex = e.argIndex ∧ d.argValue = e.argValue
  | .fixup => d.argByte = e.argByte ∧ d.argValue = e.argValue

/-- The host's next action is a write of `v` to CTRL. -/
abbrev CtrlNext (s : State) (v : BitVec 8) (rest : List HostAct) : Prop := s.script = .wr (.ctrl v) :: rest

end Sys2Proof.Machine

open Sys2Proof Sys2Proof.Machine

/-! ### The encoding -/

/-- R87: the decoder gives exactly the 18 words of the map their commands. -/
def Obligations.DecodeMatchesTheOpcodeMap : Prop :=
  ∀ c : BitVec 8, (decode c).instr? = (opcodeMap.find? fun r => r.1 == c).map Prod.snd

/-- R86, R88: which words are illegal, by the numbers of their fields, and that there are 238 of them. -/
def Obligations.IllegalWordsAreTheOther238 : Prop :=
  (∀ c : BitVec 8, (decode c).instr? = none ↔
    c.toNat / 64 ≠ 0 ∨ c.toNat % 8 = 0 ∨ c.toNat % 8 = 7 ∨
    (4 ≤ c.toNat % 8 ∧ c.toNat % 8 ≤ 6 ∧ (c.toNat / 8 % 4 ≠ 0 ∨ c.toNat / 32 % 2 ≠ 0)) ∨
    (1 ≤ c.toNat % 8 ∧ c.toNat % 8 ≤ 3 ∧
      (c.toNat / 8 % 4 = 3 ∨ (c.toNat / 8 % 4 = 1 ∧ c.toNat / 32 % 2 = 0)))) ∧
  ((List.range 256).filter fun n => (decode (BitVec.ofNat 8 n)).instr? == none).length = 238

/-- R80 to R84, R86: encoding and decoding are inverse to each other. -/
def Obligations.EncodeAndDecodeAgree : Prop :=
  (∀ i : Instr, decode (encode i) = .ok i) ∧ (∀ (c : BitVec 8) (i : Instr), decode c = .ok i → encode i = c)

/-- R86: the well-formedness check on the fields accepts exactly what the decoder accepts. -/
def Obligations.WellFormedFieldsAreTheDecodableOnes : Prop :=
  ∀ f : Fields, f.wf = true ↔ ∃ i, decodeFields f = .ok i

/-- R91, R92: the mode tokens and the default modes of the assembler; RGB has no `alpha`, and `each` is RGBA's only. -/
def Obligations.AssemblerTokensAndDefaults : Prop :=
  (∀ (op : String) (f : Pair → Instr),
    (op, f) ∈ [("ESTIMATE.", estimateOf), ("ENCODE.", encodeOf), ("DECODE.", decodeOf)] →
    assemble (op ++ "GA").toList = some (f .gaAlpha) ∧ assemble (op ++ "RGB").toList = some (f .rgbAll) ∧
    assemble (op ++ "RGBA").toList = some (f .rgbaAlpha) ∧
    assemble (op ++ "GA.alpha").toList = some (f .gaAlpha) ∧ assemble (op ++ "GA.all").toList = some (f .gaAll) ∧
    assemble (op ++ "RGB.all").toList = some (f .rgbAll) ∧
    assemble (op ++ "RGBA.alpha").toList = some (f .rgbaAlpha) ∧
    assemble (op ++ "RGBA.all").toList = some (f .rgbaAll) ∧ assemble (op ++ "RGBA.each").toList = some (f .rgbaAll) ∧
    assemble (op ++ "RGB.alpha").toList = none ∧ assemble (op ++ "GA.each").toList = none ∧
    assemble (op ++ "RGB.each").toList = none)

/-! ### The bit utilities -/

/-- R110, R111, R115: the two bit functions, for every index; an index of 8 or more fails and is not reduced. -/
def Obligations.BitFunctionsByIndex : Prop :=
  ∀ (v : Byte) (k : Nat) (t : Bool),
    (8 ≤ k → getBit v k = none ∧ setBit v k t = none) ∧
    (k < 8 → getBit v k = some (decide (v.toNat / 2 ^ k % 2 = 1)) ∧
      ∃ w, setBit v k t = some w ∧ (∀ j, j < 8 → getBit w j = if j = k then some t else getBit v j) ∧
        w.toNat + v.toNat / 2 ^ k % 2 * 2 ^ k = v.toNat + t.toNat * 2 ^ k)

/-- R114: the laws of the two bit functions, which are pure: they take no state and give none. -/
def Obligations.BitUtilityLaws : Prop :=
  ∀ (v : Byte) (k j : Nat) (s t : Bool), k < 8 → j < 8 →
    ∃ w, setBit v k t = some w ∧ getBit w k = some t ∧ (j ≠ k → getBit w j = getBit v j) ∧
      (∀ b, getBit v k = some b → setBit v k b = some v) ∧
      (∀ u, setBit v k s = some u → setBit u k t = some w) ∧
      v.toNat = ((List.range 8).map fun n => if getBit v n = some true then 2 ^ n else 0).sum ∧
      getBit v 0 = some (decide (v.toNat % 2 = 1)) ∧ getBit v 0 = some (parity v)

/-- R112: GETBIT, in every state: the indexed bit of ARG.BYTE in RESULT, or BitIndexRange; nothing else changes. -/
def Obligations.GetbitReturnsTheIndexedBit : Prop :=
  ∀ s : State,
    ((argNumbers s).2.1 < 8 →
      exec .getbit s = .next (answered s ((argNumbers s).1 / 2 ^ (argNumbers s).2.1 % 2))) ∧
    (8 ≤ (argNumbers s).2.1 → exec .getbit s = .next (faulted s 0x33))

/-- R113: SETBIT, in every state: ARG.BYTE with the indexed bit forced to ARG.VALUE in RESULT, or BitIndexRange; ARG and
everything else stay. -/
def Obligations.SetbitForcesTheIndexedBit : Prop :=
  ∀ s : State,
    ((argNumbers s).2.1 < 8 →
      exec .setbit s = .next (answered s
        ((argNumbers s).1 - (argNumbers s).1 / 2 ^ (argNumbers s).2.1 % 2 * 2 ^ (argNumbers s).2.1 +
          (argNumbers s).2.2 * 2 ^ (argNumbers s).2.1))) ∧
    (8 ≤ (argNumbers s).2.1 → exec .setbit s = .next (faulted s 0x33))

/-! ### Parity fixup -/

/-- R128: the complete case table of fixup, with the draws it takes, for every value, target and source; no case
wraps. -/
def Obligations.FixupCaseTable : Prop :=
  ∀ (v : Byte) (t : Bool) (r : Source),
    (v.toNat % 2 = 0 → t = false → fixup v t r = (v, r)) ∧
    (v.toNat % 2 = 1 → t = true → fixup v t r = (v, r)) ∧
    (v = 0 → t = true → fixup v t r = (1, r)) ∧
    (v = 255 → t = false → fixup v t r = (254, r)) ∧
    (v.toNat % 2 = 0 → v ≠ 0 → t = true →
      (fixup v t r).1.toNat = (if r.answer 0 then v.toNat + 1 else v.toNat - 1) ∧ (fixup v t r).2 = r.skip 1) ∧
    (v.toNat % 2 = 1 → v ≠ 255 → t = false →
      (fixup v t r).1.toNat = (if r.answer 0 then v.toNat + 1 else v.toNat - 1) ∧ (fixup v t r).2 = r.skip 1)

/-- R127: parity, bounded perturbation, boundaries, idempotence without a draw, and that fixup is not `set_bit` of bit
0. -/
def Obligations.FixupProperties : Prop :=
  (∀ (v : Byte) (t : Bool) (r r' : Source),
    (fixup v t r).1.toNat % 2 = t.toNat ∧
    (fixup v t r).1.toNat ≤ v.toNat + 1 ∧ v.toNat ≤ (fixup v t r).1.toNat + 1 ∧
    ((fixup v t r).1 = v ↔ v.toNat % 2 = t.toNat) ∧
    (fixup v t r).1.toNat ≤ 255 ∧
    (v = 0 → t = true → (fixup v t r).1 = 1) ∧ (v = 255 → t = false → (fixup v t r).1 = 254) ∧
    fixup (fixup v t r).1 t r' = ((fixup v t r).1, r')) ∧
  (∀ r : Source, r.answer 0 = true → (fixup 127 false r).1 = 128 ∧ setBit 127 0 false = some 126)

/-- R126: FIXUP, in every state: fixup of ARG.BYTE to ARG.VALUE in RESULT, at most one draw taken, nothing else
changed. -/
def Obligations.FixupCommandAdjustsParity : Prop :=
  ∀ (s : State) (v : Byte) (t : Bool), v.toNat = (argNumbers s).1 → t.toNat = (argNumbers s).2.2 →
    exec .fixup s = .next { answered s (fixup v t s.rnd).1.toNat with rnd := (fixup v t s.rnd).2 }

/-! ### Layouts -/

/-- R176, R177, R193, R216, R217: the pixel, the channel and the PIX address of every payload bit. Channel
3 as the alpha of RGBA is the spec's general knowledge (log entry 8). -/
def Obligations.SlotAddressesInClosedForm : Prop :=
  ∀ b i : Nat, i < 8 →
    (slotPixel .gaAlpha b i = 8 * b + i ∧ slotChannel .gaAlpha b i = 1 ∧ addr .gaAlpha b i = 16 * b + 2 * i + 1) ∧
    (slotPixel .gaAll b i = 4 * b + i / 2 ∧ slotChannel .gaAll b i = i % 2 ∧ addr .gaAll b i = 8 * b + i) ∧
    (slotPixel .rgbAll b i = 8 * (b / 3) + (8 * (b % 3) + i) / 3 ∧
      slotChannel .rgbAll b i = (8 * (b % 3) + i) % 3 ∧ addr .rgbAll b i = 8 * b + i) ∧
    (slotPixel .rgbaAlpha b i = 8 * b + i ∧ slotChannel .rgbaAlpha b i = 3 ∧
      addr .rgbaAlpha b i = 32 * b + 4 * i + 3) ∧
    (slotPixel .rgbaAll b i = 2 * b + i / 4 ∧ slotChannel .rgbaAll b i = i % 4 ∧ addr .rgbaAll b i = 8 * b + i)

/-- R141, R193: the RGB group's 24 slots, enumerated as (pixel, channel) in the document's order. -/
def Obligations.RgbGroupVisitsTheEnumeratedChannels : Prop :=
  ∀ g : Nat,
    ((List.range 24).map fun k =>
        (slotPixel .rgbAll (3 * g + k / 8) (k % 8), slotChannel .rgbAll (3 * g + k / 8) (k % 8))) =
      [(0, 0), (0, 1), (0, 2), (1, 0), (1, 1), (1, 2), (2, 0), (2, 1),
       (2, 2), (3, 0), (3, 1), (3, 2), (4, 0), (4, 1), (4, 2), (5, 0),
       (5, 1), (5, 2), (6, 0), (6, 1), (6, 2), (7, 0), (7, 1), (7, 2)].map (fun x => (8 * g + x.1, x.2)) ∧
    ∀ k, k < 24 → addr .rgbAll (3 * g + k / 8) (k % 8) = 24 * g + k

/-- R59, R57: slot addresses rise strictly with byte and bit, and the slots of a byte below the capacity lie inside the
buffer of `P` pixels. -/
def Obligations.SlotAddressesRiseInsideTheBuffer : Prop :=
  ∀ (p : Pair) (P b b' i i' : Nat), i < 8 → i' < 8 →
    ((b < b' ∨ (b = b' ∧ i < i')) → addr p b i < addr p b' i') ∧ (b < capacity p P → addr p b i < P * nch p)

/-! ### ESTIMATE -/

/-- R144, R145: the five ESTIMATE commands, in every state, answer the capacity of the pair, exactly, and change nothing
else. -/
def Obligations.EstimateReturnsTheCapacity : Prop :=
  ∀ (s : State) (P : Nat), P = s.desc.width.toNat * s.desc.height.toNat →
    exec .estimateGaAlpha s = .next (answered s (P / 8)) ∧
    exec .estimateGaAll s = .next (answered s (P / 4)) ∧
    exec .estimateRgbAll s = .next (answered s (3 * (P / 8))) ∧
    exec .estimateRgbaAlpha s = .next (answered s (P / 8)) ∧
    exec .estimateRgbaAll s = .next (answered s (P / 2)) ∧
    3 * (P / 8) < 2 ^ 64 ∧ P / 2 < 2 ^ 64

/-! ### ENCODE -/

/-- R147: the five ENCODE commands (`encodeOf p` for the five pairs), whenever the descriptor fits: every slot of the
first `n_enc` bytes holds fixup of the value it had, for its payload bit, with the draw that is its own in the order
byte then bit; every other byte of PIX, all of PAY and OUT, the registers and the host are as before. -/
def Obligations.EncodeAdjustsEverySlotInOrder : Prop :=
  ∀ (p : Pair) (s : State), EncodeFits p s →
    ∃ t, exec (encodeOf p) s = .next t ∧ t.status = 0x02 ∧ t.result = 0 ∧ t.run = none ∧
      (∀ b i, b < nEnc p s.desc → i < 8 →
        t.read .pix (addr p b i) =
          (fixup (s.read .pix (addr p b i)) (bit (s.read .pay b) i)
            (s.rnd.skip (drawsBefore p s (8 * b + i)))).1) ∧
      (∀ a, (∀ b i, b < nEnc p s.desc → i < 8 → a ≠ addr p b i) → t.read .pix a = s.read .pix a) ∧
      t.rnd = s.rnd.skip (drawsBefore p s (8 * nEnc p s.desc)) ∧
      (∀ a, t.read .pay a = s.read .pay a) ∧ (∀ a, t.read .out a = s.read .out a) ∧
      t.desc = s.desc ∧ t.script = s.script ∧ t.seen = s.seen ∧ t.resets = s.resets ∧ t.caps = s.caps

/-- R153: after ENCODE the parity of every designated channel is its payload bit. -/
def Obligations.EncodeMakesParitiesThePayload : Prop :=
  ∀ (p : Pair) (s : State), EncodeFits p s →
    ∃ t, exec (encodeOf p) s = .next t ∧
      ∀ b i, b < nEnc p s.desc → i < 8 →
        (t.read .pix (addr p b i)).toNat % 2 = (s.read .pay b).toNat / 2 ^ i % 2

/-- R154: ENCODE moves no byte of PIX by more than 1, and leaves alone what is no slot and what has the right
parity. -/
def Obligations.EncodePerturbsByAtMostOne : Prop :=
  ∀ (p : Pair) (s : State), EncodeFits p s →
    ∃ t, exec (encodeOf p) s = .next t ∧
      (∀ a, (t.read .pix a).toNat ≤ (s.read .pix a).toNat + 1 ∧ (s.read .pix a).toNat ≤ (t.read .pix a).toNat + 1 ∧
        (t.read .pix a).toNat ≤ 255) ∧
      (∀ a, (¬ ∃ b i, b < nEnc p s.desc ∧ i < 8 ∧ a = addr p b i) → t.read .pix a = s.read .pix a) ∧
      (∀ b i, b < nEnc p s.desc → i < 8 →
        (s.read .pix (addr p b i)).toNat % 2 = (s.read .pay b).toNat / 2 ^ i % 2 →
        t.read .pix (addr p b i) = s.read .pix (addr p b i))

/-- R157: an ENCODE takes one draw for each of its slots with a wrong parity and a value of 1 to 254 at START, at most
`8 n_enc` of them. -/
def Obligations.EncodeDrawsOncePerInteriorMismatch : Prop :=
  ∀ (p : Pair) (s : State), EncodeFits p s →
    ∃ t n, exec (encodeOf p) s = .next t ∧ t.rnd = s.rnd.skip n ∧ n ≤ 8 * nEnc p s.desc ∧
      n = ((List.range (8 * nEnc p s.desc)).filter fun k =>
        decide ((s.read .pix (addr p (k / 8) (k % 8))).toNat % 2 ≠ (s.read .pay (k / 8)).toNat / 2 ^ (k % 8) % 2 ∧
          1 ≤ (s.read .pix (addr p (k / 8) (k % 8))).toNat ∧
          (s.read .pix (addr p (k / 8) (k % 8))).toNat ≤ 254)).length

/-- R146, R155: a payload longer than the capacity is dropped without a sign: the state after ENCODE is the one after
ENCODE with PLEN = cap(P), but for PLEN itself; and `n_enc` is then the capacity. -/
def Obligations.EncodeDropsWhatDoesNotFit : Prop :=
  ∀ (p : Pair) (s : State), EncodeFits p s → capacity p s.desc.pixels ≤ s.desc.plen.toNat →
    nEnc p s.desc = capacity p s.desc.pixels ∧
    ∃ t, exec (encodeOf p) s = .next t ∧
      exec (encodeOf p) { s with desc := { s.desc with plen := BitVec.ofNat 64 (capacity p s.desc.pixels) } } =
        .next { t with desc := { s.desc with plen := BitVec.ofNat 64 (capacity p s.desc.pixels) } }

/-- R147, R59: ENCODE's PIX and its draws depend on the first `n_enc` bytes of PAY only. -/
def Obligations.EncodeReadsNoPayloadBeyondItsCount : Prop :=
  ∀ (p : Pair) (s : State) (m : Memory), EncodeFits p s →
    (∀ b, b < nEnc p s.desc → ({ s with pay := m } : State).read .pay b = s.read .pay b) →
    ∃ t, exec (encodeOf p) s = .next t ∧ exec (encodeOf p) { s with pay := m } = .next { t with pay := m }

/-- R156: ENCODE repeated on the PIX it produced, with any draws, changes no byte and takes no draw. -/
def Obligations.EncodeRepeatedChangesNothing : Prop :=
  ∀ (p : Pair) (s t : State) (r : Source), EncodeFits p s → exec (encodeOf p) s = .next t →
    ∃ u, exec (encodeOf p) { t with rnd := r } = .next u ∧ u.rnd = r ∧ u.status = 0x02 ∧
      ∀ S a, u.read S a = t.read S a

/-! ### DECODE -/

/-- R149: the five DECODE commands (`decodeOf p` for the five pairs), whenever the descriptor fits and LEN <= OLEN: each
of the first `n_dec` bytes of OUT is the sum of its slots' parities; every other byte of OUT, all of PIX and PAY, the
source, the registers and the host are as before. -/
def Obligations.DecodeWritesTheParities : Prop :=
  ∀ (p : Pair) (s : State), DecodeFits p s → s.desc.len.toNat ≤ s.desc.olen.toNat →
    ∃ t, exec (decodeOf p) s = .next t ∧ t.status = 0x02 ∧ t.result = 0 ∧ t.run = none ∧
      (∀ b, b < nDec p s.desc → (t.read .out b).toNat =
        ((List.range 8).map fun i => (s.read .pix (addr p b i)).toNat % 2 * 2 ^ i).sum) ∧
      (∀ b, nDec p s.desc ≤ b → t.read .out b = s.read .out b) ∧
      (∀ a, t.read .pix a = s.read .pix a) ∧ (∀ a, t.read .pay a = s.read .pay a) ∧ t.rnd = s.rnd ∧
      t.desc = s.desc ∧ t.script = s.script ∧ t.seen = s.seen ∧ t.resets = s.resets ∧ t.caps = s.caps

/-- R152, R159: the round trip. After an ENCODE of a payload that fits the image, a DECODE of the same pair, in any state
whose slot bytes are the ones ENCODE left, with LEN the payload's length and room for it in its own image and in OUT,
gives the payload, for every image and every sequence of draws. -/
def Obligations.DecodeRecoversTheEncodedPayload : Prop :=
  ∀ (p : Pair) (s t v : State), EncodeFits p s → s.desc.plen.toNat ≤ capacity p s.desc.pixels →
    exec (encodeOf p) s = .next t →
    DecodeFits p v → v.desc.len = s.desc.plen → v.desc.len.toNat ≤ v.desc.olen.toNat →
    v.desc.len.toNat ≤ capacity p v.desc.pixels →
    (∀ b i, b < s.desc.plen.toNat → i < 8 → v.read .pix (addr p b i) = t.read .pix (addr p b i)) →
    ∃ u, exec (decodeOf p) v = .next u ∧ u.status = 0x02 ∧
      ∀ b, b < s.desc.plen.toNat → u.read .out b = s.read .pay b

/-! ### Faults -/

/-- R253: ENCODE and DECODE of every pair raise DescriptorRange exactly when the image, the payload or the output buffer
does not fit its memory, DECODE whatever LEN holds; a payload above the image's capacity or LEN above OLEN is not this
fault, and ESTIMATE never raises it. Nothing but STATUS and RESULT changes. -/
def Obligations.DescriptorRangeIsCheckedFirst : Prop :=
  ∀ (p : Pair) (s : State),
    (exec (encodeOf p) s = .next (faulted s 0x23) ↔
      s.caps.pix < s.desc.width.toNat * s.desc.height.toNat * nch p ∨ s.caps.pay < s.desc.plen.toNat) ∧
    (exec (decodeOf p) s = .next (faulted s 0x23) ↔
      s.caps.pix < s.desc.width.toNat * s.desc.height.toNat * nch p ∨ s.caps.out < s.desc.olen.toNat) ∧
    ∃ t, exec (estimateOf p) s = .next t ∧ t.status = 0x06

/-- R255: DECODE of every pair with LEN > OLEN raises DecodeLength, where the descriptor fits, whatever the capacity of
the image, and writes no byte; with LEN <= OLEN, equality included, it completes. -/
def Obligations.DecodeLengthAboveBufferFaults : Prop :=
  ∀ (p : Pair) (s : State), DecodeFits p s →
    (s.desc.olen.toNat < s.desc.len.toNat → exec (decodeOf p) s = .next (faulted s 0x43)) ∧
    (s.desc.len.toNat ≤ s.desc.olen.toNat → ∃ t, exec (decodeOf p) s = .next t ∧ t.status = 0x02)

/-- R234, R235: every command, in every state, ends in DONE or FAULT with no command running any more. -/
def Obligations.EveryCommandEndsDoneOrFault : Prop :=
  ∀ (i : Instr) (s : State),
    ∃ t, exec i s = .next t ∧ (t.phase = .done ∨ t.phase = .fault) ∧ t.run = none

/-- R250, R251, R258: a command that faults leaves everything but STATUS and RESULT as it was, with a cause that is one
of its own. -/
def Obligations.FaultsArePrecise : Prop :=
  ∀ (i : Instr) (s t : State), exec i s = .next t → t.phase = .fault →
    t = faulted s t.status ∧
    match i.kind with
    | .estimate _ => False
    | .encode _ => t.status = 0x23
    | .decode _ => t.status = 0x23 ∨ t.status = 0x43
    | .getbit => t.status = 0x33
    | .setbit => t.status = 0x33
    | .fixup => False

/-! ### Frames and noninterference over all commands -/

/-- R32, R34, R61, R85: PAY and the descriptor registers are changed by no command, PIX by ENCODE only, OUT by DECODE
only, and only ENCODE and FIXUP draw. -/
def Obligations.CommandsWriteOnlyTheirOwnMemory : Prop :=
  ∀ (i : Instr) (s t : State), exec i s = .next t →
    t.desc = s.desc ∧ t.pay = s.pay ∧ t.script = s.script ∧ t.seen = s.seen ∧ t.resets = s.resets ∧
    t.caps = s.caps ∧
    ((∀ p, i.kind ≠ .encode p) → t.pix = s.pix) ∧ ((∀ p, i.kind ≠ .decode p) → t.out = s.out) ∧
    ((∀ p, i.kind ≠ .encode p) → i.kind ≠ .fixup → t.rnd = s.rnd)

/-- R85, R23: a command ignores every register that is not its operand, and WIDTH and HEIGHT count by their product
only. -/
def Obligations.CommandsReadOnlyTheirOperands : Prop :=
  ∀ (i : Instr) (s : State) (d e : Descriptor), SameOperands i.kind d e →
    ∃ t : State, exec i { s with desc := d } = .next { t with desc := d } ∧
      exec i { s with desc := e } = .next { t with desc := e }

/-- C11, R230: no command depends on what STATUS and RESULT hold when it starts. -/
def Obligations.CommandsIgnoreTheOldStatusAndResult : Prop :=
  ∀ (i : Instr) (s : State) (st : BitVec 8) (res : BitVec 64),
    exec i { s with status := st, result := res } = exec i s

/-! ### Control -/

/-- R230, R235, R237: when the host strobes START, with CLR or without it, and CMD decodes to a command, the step is that
command's `exec`, and the host has moved past the strobe; so is the step of a state made by `withFetchWord`. The model's choice here: a command is one step
from START to its end (log entry 5, DEDUCED from R235); `withFetchWord` strobes with CLR in FAULT and brings BUSY to IDLE
(log entry 6, DESIGN CHOICE); a table word is one byte (log entry 16, DEDUCED). -/
def Obligations.StartRunsTheDecodedCommand : Prop :=
  (∀ (s : State) (v : BitVec 8) (rest : List HostAct) (i : Instr),
    CtrlNext s v rest → v.getLsbD 0 = true → decode s.desc.cmd = .ok i →
    (v.getLsbD 1 = false → s.phase = .idle ∨ s.phase = .done → step s = exec i { s with script := rest }) ∧
    (v.getLsbD 1 = true → s.phase ≠ .busy → step s = exec i (State.clear { s with script := rest }))) ∧
  (∀ (s : State) (nbits w : Nat) (i : Instr), decodeTableWord nbits w = some i →
    step (s.withFetchWord nbits w) =
      exec i { s with desc := { s.desc with cmd := BitVec.ofNat 8 (w % 2 ^ nbits) } })

/-- R252: a START that finds a command word that is not one of the 18 raises IllegalCommand and changes nothing else,
whatever the other registers hold; so does a START right after reset. -/
def Obligations.IllegalCommandWordFaults : Prop :=
  (∀ (s : State) (v : BitVec 8) (rest : List HostAct),
    CtrlNext s v rest → v.getLsbD 0 = true → v.getLsbD 1 = false → s.phase = .idle ∨ s.phase = .done →
    (∀ r ∈ opcodeMap, r.1 ≠ s.desc.cmd) → step s = .next (faulted { s with script := rest } 0x13)) ∧
  ∀ rest, step { State.reset with script := .wr (.ctrl 0x01) :: rest } =
    .next (faulted { State.reset with script := rest } 0x13)

/-- R230: a START in FAULT is ignored: it changes nothing. -/
def Obligations.StartInFaultIsIgnored : Prop :=
  ∀ (s : State) (v : BitVec 8) (rest : List HostAct),
    CtrlNext s v rest → v.getLsbD 0 = true → v.getLsbD 1 = false → s.phase = .fault →
    step s = .next { s with script := rest }

/-- R231: CLR in DONE or FAULT returns to IDLE with CAUSE, RVALID and RESULT 0 and changes no descriptor register and no
memory byte; in IDLE it changes nothing. -/
def Obligations.ClrReturnsToIdle : Prop :=
  ∀ (s : State) (v : BitVec 8) (rest : List HostAct),
    CtrlNext s v rest → v.getLsbD 0 = false → v.getLsbD 1 = true →
    (s.phase = .done ∨ s.phase = .fault →
      step s = .next { s with script := rest, status := 0x00, result := 0 }) ∧
    (s.phase = .idle → step s = .next { s with script := rest })

/-- R237: a write to CTRL with both bits is CLR first and then START, one with neither bit does nothing, and bits 7:2 are
ignored. -/
def Obligations.CombinedStrobeClearsThenStarts : Prop :=
  ∀ (s : State) (rest : List HostAct) (v w : BitVec 8), s.phase ≠ .busy →
    (CtrlNext s v rest → v.getLsbD 0 = true → v.getLsbD 1 = true →
      step s = start (State.clear { s with script := rest })) ∧
    (CtrlNext s v rest → v.getLsbD 0 = false → v.getLsbD 1 = false → step s = .next { s with script := rest }) ∧
    (v.toNat % 4 = w.toNat % 4 →
      step { s with script := .wr (.ctrl v) :: rest } = step { s with script := .wr (.ctrl w) :: rest })

/-- R259: a fault stays recorded until CLR or reset: a step from FAULT that changes STATUS is one of a host that wrote
CTRL with bit 1 set, or of the reset input. -/
def Obligations.OnlyClearOrResetLeavesFault : Prop :=
  ∀ s t : State, s.phase = .fault → step s = .next t → t.status ≠ s.status →
    (∃ v rest, CtrlNext s v rest ∧ v.getLsbD 1 = true) ∨ (∃ rest, s.script = .reset :: rest)

/-- R62, R230: while BUSY the host's only move with an effect is its read of STATUS, which changes nothing else; a write to
CTRL is dropped, so that a START while BUSY never starts a command. The model's choice (log entry 7, DEDUCED from R39 and
R62, where U4 and U5 let a model refuse the move): a CLR is dropped as well (U14), every other pending host action waits
and the step is the core's move, and the reset input may land. -/
def Obligations.BusyLeavesTheHostOnlyStatus : Prop :=
  ∀ s : State, s.phase = .busy →
    (∀ rest, s.script = .rd .status :: rest →
      step s = .next { s with script := rest, seen := s.seen ++ [.reg (.status s.status)] }) ∧
    (∀ v rest, CtrlNext s v rest → step s = .next { s with script := rest }) ∧
    ((∀ rest, s.script ≠ .rd .status :: rest) → (∀ v rest, ¬ CtrlNext s v rest) →
      (∀ rest, s.script ≠ .reset :: rest) → step s = tick s)

/-- R281: with no host action the block executes nothing. -/
def Obligations.BlockWaitsForTheHost : Prop :=
  ∀ s : State, s.phase ≠ .busy → s.script = [] → step s = .next s

/-! ### The host's registers and memories, reset -/

/-- R21, R27: host writes when not BUSY: registers 0 to 6 take the value, the reserved bits of ARG are dropped, and
STATUS and RESULT ignore the write. -/
def Obligations.HostRegisterWrites : Prop :=
  ∀ (s : State) (rest : List HostAct) (b : BitVec 8) (h : BitVec 32) (w : BitVec 64), s.phase ≠ .busy →
    (s.script = .wr (.cmd b) :: rest →
      step s = .next { s with script := rest, desc := { s.desc with cmd := b } }) ∧
    (s.script = .wr (.width h) :: rest →
      step s = .next { s with script := rest, desc := { s.desc with width := h } }) ∧
    (s.script = .wr (.height h) :: rest →
      step s = .next { s with script := rest, desc := { s.desc with height := h } }) ∧
    (s.script = .wr (.plen w) :: rest →
      step s = .next { s with script := rest, desc := { s.desc with plen := w } }) ∧
    (s.script = .wr (.len w) :: rest →
      step s = .next { s with script := rest, desc := { s.desc with len := w } }) ∧
    (s.script = .wr (.olen w) :: rest →
      step s = .next { s with script := rest, desc := { s.desc with olen := w } }) ∧
    (s.script = .wr (.arg h) :: rest →
      step s = .next { s with script := rest,
                              desc := { s.desc with arg := BitVec.ofNat 32 (h.toNat % 2 ^ 17) } }) ∧
    (s.script = .wr (.status b) :: rest → step s = .next { s with script := rest }) ∧
    (s.script = .wr (.result w) :: rest → step s = .next { s with script := rest })

/-- R21, R28: a host read shows the register's value and changes nothing but what the host has seen; CTRL reads as
0. -/
def Obligations.HostRegisterReads : Prop :=
  ∀ (s : State) (rest : List HostAct), s.phase ≠ .busy →
    ∀ r v, (r, v) ∈ [(Reg.cmd, RegVal.cmd s.desc.cmd), (.width, .width s.desc.width), (.height, .height s.desc.height),
        (.plen, .plen s.desc.plen), (.len, .len s.desc.len), (.olen, .olen s.desc.olen), (.arg, .arg s.desc.arg),
        (.ctrl, .ctrl 0), (.status, .status s.status), (.result, .result s.result)] →
      s.script = .rd r :: rest → step s = .next { s with script := rest, seen := s.seen ++ [.reg v] }

/-- R32, R58, R93: the host's memory accesses when not BUSY, inside the capacity: LOAD and FILL write exactly their bytes,
a read answers the byte and changes nothing else. -/
def Obligations.HostMemoryAccess : Prop :=
  ∀ (s : State) (rest : List HostAct) (S : Space) (a n : Nat) (v : Byte) (vs : List Byte), s.phase ≠ .busy →
    (s.script = .load S a vs :: rest → a + vs.length ≤ s.caps.of S →
      ∃ t, step s = .next t ∧ t.desc = s.desc ∧ t.status = s.status ∧ t.result = s.result ∧ t.rnd = s.rnd ∧
        t.run = s.run ∧ t.script = rest ∧ t.seen = s.seen ∧ t.resets = s.resets ∧ t.caps = s.caps ∧
        ∀ T b, t.read T b = if T = S ∧ a ≤ b ∧ b < a + vs.length then vs[b - a]?.getD 0 else s.read T b) ∧
    (s.script = .fill S a n v :: rest → a + n ≤ s.caps.of S →
      ∃ t, step s = .next t ∧ t.desc = s.desc ∧ t.status = s.status ∧ t.result = s.result ∧ t.rnd = s.rnd ∧
        t.run = s.run ∧ t.script = rest ∧ t.seen = s.seen ∧ t.resets = s.resets ∧ t.caps = s.caps ∧
        ∀ T b, t.read T b = if T = S ∧ a ≤ b ∧ b < a + n then v else s.read T b) ∧
    (s.script = .peek S a :: rest → a < s.caps.of S →
      step s = .next { s with script := rest, seen := s.seen ++ [.mem S a (s.read S a)] })

/-- R50, log entry 9 (the model's choice): a host access at or beyond the capacity stops with a fault. -/
def Obligations.HostAccessBeyondCapacityStops : Prop :=
  ∀ (s : State) (rest : List HostAct) (S : Space) (a n : Nat) (v : Byte) (vs : List Byte), s.phase ≠ .busy →
    (s.script = .load S a vs :: rest → vs ≠ [] → s.caps.of S < a + vs.length →
      step s = .fault (.noSuchAddress S (max a (s.caps.of S)))) ∧
    (s.script = .fill S a n v :: rest → 0 < n → s.caps.of S < a + n →
      step s = .fault (.noSuchAddress S (max a (s.caps.of S)))) ∧
    (s.script = .peek S a :: rest → s.caps.of S ≤ a → step s = .fault (.noSuchAddress S a))

/-- R34, R93: `RND` fixes the answers of the next draws, in order, whatever they are, and moves nothing else. That
a new list replaces an earlier one is the model's choice (log entry 4). -/
def Obligations.RandomnessAnswersAsTheHostArranged : Prop :=
  ∀ (s : State) (rest : List HostAct) (ds : List Bool), s.phase ≠ .busy → s.script = .rnd ds :: rest →
    ∃ r, step s = .next { s with script := rest, rnd := r } ∧ r.pos = s.rnd.pos ∧
      ∀ j d, ds[j]? = some d → (r.skip j).draw.1 = d

/-- R37: the registers after reset. -/
def Obligations.ResetLeavesEveryRegisterZero : Prop :=
  State.reset.desc.cmd = 0 ∧ State.reset.desc.width = 0 ∧ State.reset.desc.height = 0 ∧
  State.reset.desc.plen = 0 ∧ State.reset.desc.len = 0 ∧ State.reset.desc.olen = 0 ∧ State.reset.desc.arg = 0 ∧
  readReg State.reset .ctrl = .ctrl 0 ∧
  State.reset.status = 0 ∧ State.reset.phase = .idle ∧ rvalidOf State.reset.status = false ∧
  causeOf State.reset.status = 0 ∧ State.reset.result = 0 ∧ State.reset.run = none ∧
  (decode State.reset.desc.cmd).instr? = none

/-- R280, R37, R34: the reset input, asserted when not BUSY: the registers take their reset values and the source is not
touched. That nothing is listed in the memories afterwards is the model's form of R38 (log entry 2). -/
def Obligations.ResetInputRestoresTheRegisters : Prop :=
  ∀ (s : State) (rest : List HostAct), s.phase ≠ .busy → s.script = .reset :: rest →
    step s = .next { State.resetWith s.caps with
      rnd := s.rnd, script := rest, seen := s.seen, resets := s.resets + 1 }

/-- R36, R10: no step changes the capacities. -/
def Obligations.CapacitiesNeverChange : Prop :=
  ∀ s t : State, step s = .next t → t.caps = s.caps

/-! ### The machine as a whole -/

/-- The invariant holds right after reset (R37), with the capacities the model chose for it (log entry 1). -/
def Obligations.ResetMeetsTheInvariant : Prop := State.reset.inv = true

/-- R20, R27, R29, R30, R50, R251: every step, from every state that meets the invariant, gives a state that meets it. -/
def Obligations.StepKeepsTheInvariant : Prop :=
  ∀ s t : State, s.inv = true → step s = .next t → t.inv = true

/-- R235, R234, R30, R33: a command as one step is the command slot by slot. From the accepted START (`launch`) the
core's moves on the latched descriptor and the cursor show BUSY throughout the `8 n` slot operations of ENCODE and
DECODE, and then, one move later, reach exactly the state that `exec` answers in one step; a failing check gives that
state at once. The model's choice here: a command as one step (log entry 5) and the output byte that a running DECODE
keeps (log entry 11), both DEDUCED. -/
def Obligations.SlotBySlotRunIsTheCommand : Prop :=
  ∀ (s : State) (i : Instr), decode s.desc.cmd = .ok i →
    ∃ t, exec i s = .next t ∧
      ((startCheck i.kind s.desc s.caps ≠ none ∧ launch s = t) ∨
       (startCheck i.kind s.desc s.caps = none ∧
        (∀ k, k ≤ 8 * workBytes i.kind s.desc → ∃ u, ticks k (launch s) = .next u ∧ u.phase = .busy) ∧
        ticks (8 * workBytes i.kind s.desc + 1) (launch s) = .next t))

/-- R68, which the spec marks as derived from R59: in ENCODE and DECODE of every pair the order of the slots shows only in
which draw each slot receives. Visited in any order `ks`, a slot of ENCODE holds fixup of its value at START, for its
payload bit and its own draw, and no other byte changes; ENCODE leaves what any order of its slots leaves in which every
slot that takes a draw receives an equal one; DECODE leaves what any order of its slots leaves, where in another order
a slot puts its bit straight into OUT, which is the model's choice (log entry 17, DEDUCED). -/
def Obligations.SlotOrderShowsOnlyInTheDraws : Prop :=
  ∀ (p : Pair) (s : State) (ks : List Nat),
    (ks.Nodup → ∀ k ∈ ks, (encodeInOrder p ks s).read .pix (slotAddr p k) =
      (fixup (s.read .pix (slotAddr p k)) (bit (s.read .pay (k / 8)) (k % 8))
        (s.rnd.skip (drawsInOrder p s ks k))).1) ∧
    (∀ S a, (S = .pix → ∀ k ∈ ks, a ≠ slotAddr p k) → (encodeInOrder p ks s).read S a = s.read S a) ∧
    (EncodeFits p s → ks.Perm (List.range (8 * nEnc p s.desc)) →
      ∃ t, exec (encodeOf p) s = .next t ∧
        ∀ r : Source,
          (∀ k ∈ ks, interiorMismatch (s.read .pix (slotAddr p k)) (bit (s.read .pay (k / 8)) (k % 8)) = true →
            r.answer (drawsInOrder p s ks k) = s.rnd.answer (drawsBefore p s k)) →
          ∀ S a, t.read S a = (encodeInOrder p ks { s with rnd := r }).read S a) ∧
    (DecodeFits p s → s.desc.len.toNat ≤ s.desc.olen.toNat → ks.Perm (List.range (8 * nDec p s.desc)) →
      ∃ t, exec (decodeOf p) s = .next t ∧ ∀ S a, t.read S a = (decodeInOrder p ks s).read S a)

/-- R30, R33: the cursor of a running ENCODE or DECODE stands on `(0, 0)` after START, goes through the slots `i` first and
then `b`, with `b` below `min(length, capacity)`, beside the descriptor latched at START. That there is no cursor once no
slot is left, or where the command has none, is the model's reading of the bound (log entry 18, DEDUCED). -/
def Obligations.CursorWalksTheSlotsInOrder : Prop :=
  ∀ (s : State) (i : Instr) (k : Nat), decode s.desc.cmd = .ok i → startCheck i.kind s.desc s.caps = none →
    (k < 8 * workBytes i.kind s.desc →
      ∃ u ob, ticks k (launch s) = .next u ∧ u.run = some ⟨s.desc, some ⟨k / 8, k % 8, ob⟩⟩ ∧
        k / 8 < workBytes i.kind s.desc) ∧
    (k = 8 * workBytes i.kind s.desc → ∃ u, ticks k (launch s) = .next u ∧ u.run = some ⟨s.desc, none⟩)

/-- R285, item 9, R34: a host that draws from the randomness source itself, when not BUSY, sees the next bit of the stream
and moves the position by one, and nothing else changes. The action is the model's form (log entry 19, DESIGN CHOICE). -/
def Obligations.HostDrawTakesTheNextBit : Prop :=
  ∀ (s : State) (rest : List HostAct), s.phase ≠ .busy → s.script = .draw :: rest →
    step s = .next { s with
      script := rest, rnd := s.rnd.skip 1, seen := s.seen ++ [.draw (s.rnd.answer 0)] } ∧
    (s.rnd.skip 1).pos = s.rnd.pos + 1 ∧ ∀ j, (s.rnd.skip 1).answer j = s.rnd.answer (j + 1)
end

