-- ==== Sys2Proof/Laws/State.lean ====
section
/-! SUPPORT. One lemma per field per update of the state: what each shared operation leaves in each field. -/

namespace Sys2Proof.Machine

/-! ### `accept` -/

@[simp] theorem State.accept_desc (s : State) : s.accept.desc = s.desc := rfl
@[simp] theorem State.accept_status (s : State) : s.accept.status = statusBusy := rfl
@[simp] theorem State.accept_result (s : State) : s.accept.result = 0 := rfl
@[simp] theorem State.accept_pix (s : State) : s.accept.pix = s.pix := rfl
@[simp] theorem State.accept_pay (s : State) : s.accept.pay = s.pay := rfl
@[simp] theorem State.accept_out (s : State) : s.accept.out = s.out := rfl
@[simp] theorem State.accept_run (s : State) : s.accept.run = some ⟨s.desc, none⟩ := rfl
@[simp] theorem State.accept_rnd (s : State) : s.accept.rnd = s.rnd := rfl
@[simp] theorem State.accept_script (s : State) : s.accept.script = s.script := rfl
@[simp] theorem State.accept_seen (s : State) : s.accept.seen = s.seen := rfl
@[simp] theorem State.accept_resets (s : State) : s.accept.resets = s.resets := rfl
@[simp] theorem State.accept_caps (s : State) : s.accept.caps = s.caps := rfl
@[simp] theorem State.accept_mem (s : State) (S : Space) : s.accept.mem S = s.mem S := by cases S <;> rfl
@[simp] theorem State.accept_read (s : State) (S : Space) (a : Nat) : s.accept.read S a = s.read S a := by cases S <;> rfl

/-! ### `raiseFault` -/

@[simp] theorem State.raiseFault_desc (s : State) (c : Cause) : (s.raiseFault c).desc = s.desc := rfl
@[simp] theorem State.raiseFault_status (s : State) (c : Cause) : (s.raiseFault c).status = statusFault c := rfl
@[simp] theorem State.raiseFault_result (s : State) (c : Cause) : (s.raiseFault c).result = s.result := rfl
@[simp] theorem State.raiseFault_pix (s : State) (c : Cause) : (s.raiseFault c).pix = s.pix := rfl
@[simp] theorem State.raiseFault_pay (s : State) (c : Cause) : (s.raiseFault c).pay = s.pay := rfl
@[simp] theorem State.raiseFault_out (s : State) (c : Cause) : (s.raiseFault c).out = s.out := rfl
@[simp] theorem State.raiseFault_run (s : State) (c : Cause) : (s.raiseFault c).run = none := rfl
@[simp] theorem State.raiseFault_rnd (s : State) (c : Cause) : (s.raiseFault c).rnd = s.rnd := rfl
@[simp] theorem State.raiseFault_script (s : State) (c : Cause) : (s.raiseFault c).script = s.script := rfl
@[simp] theorem State.raiseFault_seen (s : State) (c : Cause) : (s.raiseFault c).seen = s.seen := rfl
@[simp] theorem State.raiseFault_resets (s : State) (c : Cause) : (s.raiseFault c).resets = s.resets := rfl
@[simp] theorem State.raiseFault_caps (s : State) (c : Cause) : (s.raiseFault c).caps = s.caps := rfl
@[simp] theorem State.raiseFault_mem (s : State) (c : Cause) (S : Space) : (s.raiseFault c).mem S = s.mem S := by cases S <;> rfl
@[simp] theorem State.raiseFault_read (s : State) (c : Cause) (S : Space) (a : Nat) : (s.raiseFault c).read S a = s.read S a := by cases S <;> rfl

/-! ### `complete` -/

@[simp] theorem State.complete_desc (s : State) : s.complete.desc = s.desc := rfl
@[simp] theorem State.complete_status (s : State) : s.complete.status = statusDone false := rfl
@[simp] theorem State.complete_result (s : State) : s.complete.result = s.result := rfl
@[simp] theorem State.complete_pix (s : State) : s.complete.pix = s.pix := rfl
@[simp] theorem State.complete_pay (s : State) : s.complete.pay = s.pay := rfl
@[simp] theorem State.complete_out (s : State) : s.complete.out = s.out := rfl
@[simp] theorem State.complete_run (s : State) : s.complete.run = none := rfl
@[simp] theorem State.complete_rnd (s : State) : s.complete.rnd = s.rnd := rfl
@[simp] theorem State.complete_script (s : State) : s.complete.script = s.script := rfl
@[simp] theorem State.complete_seen (s : State) : s.complete.seen = s.seen := rfl
@[simp] theorem State.complete_resets (s : State) : s.complete.resets = s.resets := rfl
@[simp] theorem State.complete_caps (s : State) : s.complete.caps = s.caps := rfl
@[simp] theorem State.complete_mem (s : State) (S : Space) : s.complete.mem S = s.mem S := by cases S <;> rfl
@[simp] theorem State.complete_read (s : State) (S : Space) (a : Nat) : s.complete.read S a = s.read S a := by cases S <;> rfl

/-! ### `completeWith` -/

@[simp] theorem State.completeWith_desc (s : State) (v : Nat) : (s.completeWith v).desc = s.desc := rfl
@[simp] theorem State.completeWith_status (s : State) (v : Nat) : (s.completeWith v).status = statusDone true := rfl
@[simp] theorem State.completeWith_result (s : State) (v : Nat) : (s.completeWith v).result = BitVec.ofNat 64 v := rfl
@[simp] theorem State.completeWith_pix (s : State) (v : Nat) : (s.completeWith v).pix = s.pix := rfl
@[simp] theorem State.completeWith_pay (s : State) (v : Nat) : (s.completeWith v).pay = s.pay := rfl
@[simp] theorem State.completeWith_out (s : State) (v : Nat) : (s.completeWith v).out = s.out := rfl
@[simp] theorem State.completeWith_run (s : State) (v : Nat) : (s.completeWith v).run = none := rfl
@[simp] theorem State.completeWith_rnd (s : State) (v : Nat) : (s.completeWith v).rnd = s.rnd := rfl
@[simp] theorem State.completeWith_script (s : State) (v : Nat) : (s.completeWith v).script = s.script := rfl
@[simp] theorem State.completeWith_seen (s : State) (v : Nat) : (s.completeWith v).seen = s.seen := rfl
@[simp] theorem State.completeWith_resets (s : State) (v : Nat) : (s.completeWith v).resets = s.resets := rfl
@[simp] theorem State.completeWith_caps (s : State) (v : Nat) : (s.completeWith v).caps = s.caps := rfl
@[simp] theorem State.completeWith_mem (s : State) (v : Nat) (S : Space) : (s.completeWith v).mem S = s.mem S := by cases S <;> rfl
@[simp] theorem State.completeWith_read (s : State) (v : Nat) (S : Space) (a : Nat) : (s.completeWith v).read S a = s.read S a := by cases S <;> rfl

/-! ### `setMem` and `write` -/

@[simp] theorem State.setMem_desc (s : State) (S : Space) (m : Memory) : (s.setMem S m).desc = s.desc := by cases S <;> rfl
@[simp] theorem State.setMem_status (s : State) (S : Space) (m : Memory) : (s.setMem S m).status = s.status := by cases S <;> rfl
@[simp] theorem State.setMem_result (s : State) (S : Space) (m : Memory) : (s.setMem S m).result = s.result := by cases S <;> rfl
@[simp] theorem State.setMem_run (s : State) (S : Space) (m : Memory) : (s.setMem S m).run = s.run := by cases S <;> rfl
@[simp] theorem State.setMem_rnd (s : State) (S : Space) (m : Memory) : (s.setMem S m).rnd = s.rnd := by cases S <;> rfl
@[simp] theorem State.setMem_script (s : State) (S : Space) (m : Memory) : (s.setMem S m).script = s.script := by cases S <;> rfl
@[simp] theorem State.setMem_seen (s : State) (S : Space) (m : Memory) : (s.setMem S m).seen = s.seen := by cases S <;> rfl
@[simp] theorem State.setMem_resets (s : State) (S : Space) (m : Memory) : (s.setMem S m).resets = s.resets := by cases S <;> rfl
@[simp] theorem State.setMem_caps (s : State) (S : Space) (m : Memory) : (s.setMem S m).caps = s.caps := by cases S <;> rfl
@[simp] theorem State.setMem_mem (s : State) (S T : Space) (m : Memory) :
    (s.setMem S m).mem T = if T = S then m else s.mem T := by cases S <;> cases T <;> rfl

@[simp] theorem State.write_desc (s : State) (S : Space) (a : Nat) (v : Byte) : (s.write S a v).desc = s.desc := by cases S <;> rfl
@[simp] theorem State.write_status (s : State) (S : Space) (a : Nat) (v : Byte) : (s.write S a v).status = s.status := by cases S <;> rfl
@[simp] theorem State.write_result (s : State) (S : Space) (a : Nat) (v : Byte) : (s.write S a v).result = s.result := by cases S <;> rfl
@[simp] theorem State.write_run (s : State) (S : Space) (a : Nat) (v : Byte) : (s.write S a v).run = s.run := by cases S <;> rfl
@[simp] theorem State.write_rnd (s : State) (S : Space) (a : Nat) (v : Byte) : (s.write S a v).rnd = s.rnd := by cases S <;> rfl
@[simp] theorem State.write_script (s : State) (S : Space) (a : Nat) (v : Byte) : (s.write S a v).script = s.script := by cases S <;> rfl
@[simp] theorem State.write_seen (s : State) (S : Space) (a : Nat) (v : Byte) : (s.write S a v).seen = s.seen := by cases S <;> rfl
@[simp] theorem State.write_resets (s : State) (S : Space) (a : Nat) (v : Byte) : (s.write S a v).resets = s.resets := by cases S <;> rfl
@[simp] theorem State.write_caps (s : State) (S : Space) (a : Nat) (v : Byte) : (s.write S a v).caps = s.caps := by cases S <;> rfl
@[simp] theorem State.write_mem (s : State) (S T : Space) (a : Nat) (v : Byte) :
    (s.write S a v).mem T = if T = S then (s.mem S).set a v else s.mem T := by simp [State.write]

/-! ### The draw and the cursor -/

@[simp] theorem State.withRnd_desc (s : State) (r : Source) : ({ s with rnd := r } : State).desc = s.desc := rfl
@[simp] theorem State.withRnd_status (s : State) (r : Source) : ({ s with rnd := r } : State).status = s.status := rfl
@[simp] theorem State.withRnd_result (s : State) (r : Source) : ({ s with rnd := r } : State).result = s.result := rfl
@[simp] theorem State.withRnd_pix (s : State) (r : Source) : ({ s with rnd := r } : State).pix = s.pix := rfl
@[simp] theorem State.withRnd_pay (s : State) (r : Source) : ({ s with rnd := r } : State).pay = s.pay := rfl
@[simp] theorem State.withRnd_out (s : State) (r : Source) : ({ s with rnd := r } : State).out = s.out := rfl
@[simp] theorem State.withRnd_run (s : State) (r : Source) : ({ s with rnd := r } : State).run = s.run := rfl
@[simp] theorem State.withRnd_script (s : State) (r : Source) : ({ s with rnd := r } : State).script = s.script := rfl
@[simp] theorem State.withRnd_seen (s : State) (r : Source) : ({ s with rnd := r } : State).seen = s.seen := rfl
@[simp] theorem State.withRnd_resets (s : State) (r : Source) : ({ s with rnd := r } : State).resets = s.resets := rfl
@[simp] theorem State.withRnd_caps (s : State) (r : Source) : ({ s with rnd := r } : State).caps = s.caps := rfl
@[simp] theorem State.withRnd_mem (s : State) (r : Source) (S : Space) : ({ s with rnd := r } : State).mem S = s.mem S := by
  cases S <;> rfl
@[simp] theorem State.withRnd_read (s : State) (r : Source) (S : Space) (a : Nat) :
    ({ s with rnd := r } : State).read S a = s.read S a := by cases S <;> rfl
@[simp] theorem State.withRun_mem (s : State) (r : Option Running) (S : Space) :
    ({ s with run := r } : State).mem S = s.mem S := by cases S <;> rfl
@[simp] theorem State.withRun_read (s : State) (r : Option Running) (S : Space) (a : Nat) :
    ({ s with run := r } : State).read S a = s.read S a := by cases S <;> rfl

/-! ### `clear` -/

@[simp] theorem State.clear_desc (s : State) : s.clear.desc = s.desc := by unfold State.clear; split <;> rfl
@[simp] theorem State.clear_pix (s : State) : s.clear.pix = s.pix := by unfold State.clear; split <;> rfl
@[simp] theorem State.clear_pay (s : State) : s.clear.pay = s.pay := by unfold State.clear; split <;> rfl
@[simp] theorem State.clear_out (s : State) : s.clear.out = s.out := by unfold State.clear; split <;> rfl
@[simp] theorem State.clear_run (s : State) : s.clear.run = s.run := by unfold State.clear; split <;> rfl
@[simp] theorem State.clear_rnd (s : State) : s.clear.rnd = s.rnd := by unfold State.clear; split <;> rfl
@[simp] theorem State.clear_script (s : State) : s.clear.script = s.script := by unfold State.clear; split <;> rfl
@[simp] theorem State.clear_seen (s : State) : s.clear.seen = s.seen := by unfold State.clear; split <;> rfl
@[simp] theorem State.clear_resets (s : State) : s.clear.resets = s.resets := by unfold State.clear; split <;> rfl
@[simp] theorem State.clear_caps (s : State) : s.clear.caps = s.caps := by unfold State.clear; split <;> rfl

/-! ### Reset -/

@[simp] theorem State.resetWith_status (c : Caps) : (State.resetWith c).status = 0 := rfl
@[simp] theorem State.resetWith_result (c : Caps) : (State.resetWith c).result = 0 := rfl
@[simp] theorem State.resetWith_pix (c : Caps) : (State.resetWith c).pix = [] := rfl
@[simp] theorem State.resetWith_pay (c : Caps) : (State.resetWith c).pay = [] := rfl
@[simp] theorem State.resetWith_out (c : Caps) : (State.resetWith c).out = [] := rfl
@[simp] theorem State.resetWith_run (c : Caps) : (State.resetWith c).run = none := rfl
@[simp] theorem State.resetWith_desc (c : Caps) : (State.resetWith c).desc = Descriptor.reset := rfl
@[simp] theorem State.resetWith_caps (c : Caps) : (State.resetWith c).caps = c := rfl

end Sys2Proof.Machine
end

