-- ==== Sys2Proof/Laws/Fixup.lean ====
section
/-! SUPPORT. The laws of the byte functions and of the draw: parity and bits (R13, R114), fixup (R127, R128), and the
source's answers (R34). -/

namespace Sys2Proof.Machine

/-! ### The source -/

theorem Source.skip_zero (r : Source) : r.skip 0 = r := by simp [Source.skip]

theorem Source.skip_skip (r : Source) (m n : Nat) : (r.skip m).skip n = r.skip (m + n) := by
  simp [Source.skip, Nat.add_assoc]

theorem Source.answer_skip (r : Source) (m j : Nat) : (r.skip m).answer j = r.answer (m + j) := by
  simp [Source.skip, Source.answer, Nat.add_assoc]

@[simp] theorem Source.skip_pos (r : Source) (n : Nat) : (r.skip n).pos = r.pos + n := rfl

@[simp] theorem Source.draw_fst (r : Source) : r.draw.1 = r.answer 0 := rfl
@[simp] theorem Source.draw_snd (r : Source) : r.draw.2 = r.skip 1 := rfl

/-! ### Parity and bits -/

/-- A statement about every byte, from one about every number below 256. -/
theorem byte_forall {P : Byte → Prop} (h : ∀ n : Fin 256, P (BitVec.ofFin n)) (v : Byte) : P v := h v.toFin

theorem bit_zero (v : Byte) : bit v 0 = parity v := by simp [bit, parity]

theorem parity_toNat (v : Byte) : v.toNat % 2 = (parity v).toNat := by
  unfold parity
  rcases Nat.mod_two_eq_zero_or_one v.toNat with h | h <;> simp [h]

theorem bit_toNat (v : Byte) (k : Nat) : v.toNat / 2 ^ k % 2 = (bit v k).toNat := by
  unfold bit
  rcases Nat.mod_two_eq_zero_or_one (v.toNat / 2 ^ k) with h | h <;> simp [h]

theorem bit_eq_testBit (v : Byte) (k : Nat) : bit v k = v.toNat.testBit k := by
  rw [bit, Nat.testBit_eq_decide_div_mod_eq]
  by_cases h : v.toNat / 2 ^ k % 2 = 1 <;> simp [h]

theorem bit_eq_getLsbD (v : Byte) (k : Nat) : bit v k = v.getLsbD k := by
  rw [bit_eq_testBit]; rfl

/-- Bytes with the same eight bits are equal. -/
theorem byte_ext {v w : Byte} (h : ∀ k, k < 8 → bit v k = bit w k) : v = w :=
  BitVec.eq_of_getLsbD_eq fun k hk => by simpa [bit_eq_getLsbD] using h k hk

theorem putBit_eq_small : ∀ n : Fin 256, ∀ k : Fin 8, ∀ t : Bool, putBit (BitVec.ofFin n) k t =
    if t then BitVec.ofFin n ||| BitVec.twoPow 8 k else BitVec.ofFin n &&& ~~~ BitVec.twoPow 8 k := by decide +kernel

/-- Forcing a bit, as a mask: the arithmetic of R111 changes that one bit. -/
theorem putBit_eq (v : Byte) {k : Nat} (t : Bool) (hk : k < 8) :
    putBit v k t = if t then v ||| BitVec.twoPow 8 k else v &&& ~~~ BitVec.twoPow 8 k :=
  putBit_eq_small v.toFin ⟨k, hk⟩ t

/-- The bits of a byte with one bit forced (R111). -/
theorem bit_putBit (v : Byte) {k j : Nat} (t : Bool) (hk : k < 8) (hj : j < 8) :
    bit (putBit v k t) j = if j = k then t else bit v j := by
  rw [bit_eq_getLsbD, bit_eq_getLsbD, putBit_eq v t hk]
  by_cases h : j = k
  · subst h; cases t <;> simp [hj]
  · cases t <;> simp [hj, h]

/-! ### fixup -/

/-- What fixup answers and what it leaves of the source, said once (R121, R123). -/
theorem fixup_eq (v : Byte) (t : Bool) (r : Source) :
    fixup v t r = (fixupValue v t (r.answer 0), r.skip (interiorMismatch v t).toNat) := by
  unfold fixup fixupValue interiorMismatch
  have hne : ∀ {x y : Byte}, x ≠ y → (x != y) = true := fun h => by simpa using h
  by_cases h1 : parity v = t
  · simp [h1, Source.skip_zero]
  · rw [if_neg h1, if_neg h1]
    by_cases h2 : v = 0
    · rw [if_pos h2, if_pos h2]; simp [h2, Source.skip_zero]
    · rw [if_neg h2, if_neg h2]
      by_cases h3 : v = 255
      · rw [if_pos h3, if_pos h3]; simp [h3, Source.skip_zero]
      · have h1' : (parity v != t) = true := by simpa using h1
        rw [if_neg h3, if_neg h3, h1', hne h2, hne h3]
        cases h4 : r.answer 0 <;> simp [h4]

theorem fixupValue_parity_small : ∀ n : Fin 256, ∀ t d : Bool, parity (fixupValue (BitVec.ofFin n) t d) = t := by
  decide +kernel

/-- fixup gives the wanted parity (R127 (a)). -/
theorem fixupValue_parity (v : Byte) (t d : Bool) : parity (fixupValue v t d) = t :=
  fixupValue_parity_small v.toFin t d

theorem fixupValue_near_small : ∀ n : Fin 256, ∀ t d : Bool,
    (fixupValue (BitVec.ofFin n) t d).toNat ≤ n.val + 1 ∧ n.val ≤ (fixupValue (BitVec.ofFin n) t d).toNat + 1 := by
  decide +kernel

/-- fixup moves a value by at most 1 (R127 (b)). -/
theorem fixupValue_near (v : Byte) (t d : Bool) :
    (fixupValue v t d).toNat ≤ v.toNat + 1 ∧ v.toNat ≤ (fixupValue v t d).toNat + 1 :=
  fixupValue_near_small v.toFin t d

/-- fixup leaves a value of the right parity alone (R121, case 1). -/
theorem fixupValue_of_parity {v : Byte} {t : Bool} (d : Bool) (h : parity v = t) : fixupValue v t d = v := by
  simp [fixupValue, h]

theorem interiorMismatch_of_parity {v : Byte} {t : Bool} (h : parity v = t) : interiorMismatch v t = false := by
  simp [interiorMismatch, h]

/-- Outside the case that takes a draw, fixup does not look at one (R123). -/
theorem fixupValue_draw_irrelevant {v : Byte} {t : Bool} (d e : Bool) (h : interiorMismatch v t = false) :
    fixupValue v t d = fixupValue v t e := by
  unfold interiorMismatch at h
  unfold fixupValue
  by_cases h1 : parity v = t
  · rw [if_pos h1, if_pos h1]
  · rw [if_neg h1, if_neg h1]
    by_cases h2 : v = 0
    · rw [if_pos h2, if_pos h2]
    · by_cases h3 : v = 255
      · rw [if_pos h3, if_pos h3]
      · rw [Bool.and_eq_false_iff, Bool.and_eq_false_iff, bne_eq_false_iff_eq, bne_eq_false_iff_eq,
          bne_eq_false_iff_eq] at h
        exact absurd h (by simp only [h1, false_or]; exact fun c => c.elim h2 h3)

end Sys2Proof.Machine
end

