-- ==== Sys2Proof/Laws/Layout.lean ====
section
/-! SUPPORT. The laws of the layouts: the addresses of the slots (R143) rise, are distinct and stay inside the buffer
(R57, R59). -/

namespace Sys2Proof.Machine

/-- The bytes of PIX between the slots of two neighbouring bits, and the offset of the first (the closed forms of
R143). -/
def slotStride : Pair → Nat × Nat
  | .gaAlpha => (2, 1)
  | .gaAll => (1, 0)
  | .rgbAll => (1, 0)
  | .rgbaAlpha => (4, 3)
  | .rgbaAll => (1, 0)

/-- Every pair's slots lie evenly in address order. -/
theorem addr_eq_stride (p : Pair) (b i : Nat) :
    addr p b i = (8 * b + i) * (slotStride p).1 + (slotStride p).2 := by
  cases p <;>
    simp only [addr, pixAddr, slotPixel, slotChannel, nch, Pair.fmt, Fmt.nch, groupBytes, groupPixels, slot, slotStride] <;>
    omega

theorem slotAddr_eq_stride (p : Pair) (k : Nat) : slotAddr p k = k * (slotStride p).1 + (slotStride p).2 := by
  rw [slotAddr, addr_eq_stride, Nat.div_add_mod]

/-- The slot addresses rise with the slot (R59). -/
theorem slotAddr_lt (p : Pair) {j k : Nat} (h : j < k) : slotAddr p j < slotAddr p k := by
  rw [slotAddr_eq_stride, slotAddr_eq_stride]
  cases p <;> simp only [slotStride] <;> omega

/-- The slot addresses are distinct (R59). -/
theorem slotAddr_inj (p : Pair) {j k : Nat} (h : slotAddr p j = slotAddr p k) : j = k := by
  rcases Nat.lt_trichotomy j k with hlt | he | hlt
  · exact absurd h (Nat.ne_of_lt (slotAddr_lt p hlt))
  · exact he
  · exact absurd h.symm (Nat.ne_of_lt (slotAddr_lt p hlt))

/-- The slot of bit `i` of byte `b` is the slot `8 b + i` in the order of the codec. -/
theorem slotAddr_of_byte (p : Pair) (b : Nat) {i : Nat} (hi : i < 8) : slotAddr p (8 * b + i) = addr p b i := by
  have h1 : (8 * b + i) / 8 = b := by omega
  have h2 : (8 * b + i) % 8 = i := by omega
  rw [slotAddr, h1, h2]

/-- A slot of a byte below the capacity lies inside the buffer (R57). -/
theorem addr_lt_of_lt_capacity (p : Pair) {P b i : Nat} (hb : b < capacity p P) (hi : i < 8) :
    addr p b i < P * nch p := by
  rw [addr_eq_stride]
  cases p <;> simp only [capacity, groupBytes, groupPixels, nch, Pair.fmt, Fmt.nch, slotStride] at * <;> omega

/-- The capacity of any image the registers can describe fits RESULT (R144, D19). -/
theorem capacity_lt (p : Pair) (d : Descriptor) : capacity p d.pixels < 2 ^ 64 := by
  have h : d.pixels ≤ (2 ^ 32 - 1) * (2 ^ 32 - 1) :=
    Nat.mul_le_mul (by have := d.width.isLt; omega) (by have := d.height.isLt; omega)
  cases p <;> simp only [capacity, groupBytes, groupPixels] <;> omega

/-- Row-major order and its inverse (R53). -/
theorem linearIndex_inverse {w x : Nat} (y : Nat) (hx : x < w) :
    linearIndex w x y % w = x ∧ linearIndex w x y / w = y := by
  rw [linearIndex, Nat.add_comm, Nat.add_mul_mod_self_right, Nat.add_mul_div_right _ _ (by omega),
    Nat.mod_eq_of_lt hx, Nat.div_eq_of_lt hx]
  exact ⟨rfl, Nat.zero_add y⟩

/-- In the ALPHA mode every slot is the alpha channel of its pixel (R54, R140). -/
theorem slotChannel_alpha {p : Pair} (h : p.mode = .alpha) (b i : Nat) :
    alphaChannel p.fmt = some (slotChannel p b i) := by
  cases p <;> first | rfl | cases h

end Sys2Proof.Machine
end

