-- ==== Sys2Proof/Laws/Memory.lean ====
section
/-! SUPPORT. The laws of the byte memories: read after write, and the canonical form that every operation keeps. -/

namespace Sys2Proof.Machine

/-! ### Read after write -/

theorem Memory.get?_set_same (m : Memory) (a : Nat) (v : Byte) : (m.set a v).get? a = some v := by
  induction m with
  | nil => simp [Memory.set, Memory.get?]
  | cons c m ih =>
    obtain ⟨k, w⟩ := c
    unfold Memory.set
    split
    · simp [Memory.get?, ih, Nat.ne_of_lt ‹k < a›]
    · split <;> simp [Memory.get?]

theorem Memory.get?_set_other (m : Memory) {a b : Nat} (v : Byte) (h : b ≠ a) : (m.set a v).get? b = m.get? b := by
  have h' : a ≠ b := fun e => h e.symm
  induction m with
  | nil => simp [Memory.set, Memory.get?, h']
  | cons c m ih =>
    obtain ⟨k, w⟩ := c
    unfold Memory.set
    split
    · simp [Memory.get?, ih]
    · split
      · subst k; simp [Memory.get?, h']
      · simp [Memory.get?, h']

/-- A memory after a write: the written byte, and every other byte as before. -/
theorem State.read_write (s : State) (S T : Space) (a b : Nat) (v : Byte) :
    (s.write S a v).read T b = if T = S ∧ b = a then v else s.read T b := by
  unfold State.read
  by_cases hS : T = S
  · subst hS
    by_cases hb : b = a
    · subst hb; simp [Memory.get?_set_same]
    · simp [hb, Memory.get?_set_other _ _ hb]
  · simp [hS]

@[simp] theorem State.read_write_same (s : State) (S : Space) (a : Nat) (v : Byte) :
    (s.write S a v).read S a = v := by simp [State.read_write]

theorem State.read_write_addr (s : State) (S T : Space) {a b : Nat} (v : Byte) (h : b ≠ a) :
    (s.write S a v).read T b = s.read T b := by simp [State.read_write, h]

theorem State.read_write_space (s : State) {S T : Space} (a b : Nat) (v : Byte) (h : T ≠ S) :
    (s.write S a v).read T b = s.read T b := by simp [State.read_write, h]

/-! ### The canonical form -/

theorem Memory.above_set {c a : Nat} {m : Memory} (v : Byte) (h : m.above c = true) (hc : c < a) :
    (m.set a v).above c = true := by
  induction m with
  | nil => simpa [Memory.set, Memory.above] using hc
  | cons d m ih =>
    obtain ⟨k, w⟩ := d
    simp only [Memory.above, List.all_cons, Bool.and_eq_true, decide_eq_true_eq] at h ih
    unfold Memory.set
    split
    · simpa [Memory.above] using ⟨h.1, by simpa using ih h.2⟩
    · split
      · simpa [Memory.above, hc] using h.2
      · simpa [Memory.above, hc] using h

theorem Memory.above_mono {a b : Nat} {m : Memory} (h : m.above b = true) (hab : a ≤ b) : m.above a = true := by
  simp only [Memory.above, List.all_eq_true, decide_eq_true_eq] at *
  exact fun c hc => Nat.lt_of_le_of_lt hab (h c hc)

/-- A write keeps the canonical form. -/
theorem Memory.wf_set {m : Memory} (a : Nat) (v : Byte) (h : m.wf = true) : (m.set a v).wf = true := by
  induction m with
  | nil => simp [Memory.set, Memory.wf, Memory.above]
  | cons d m ih =>
    obtain ⟨k, w⟩ := d
    simp only [Memory.wf, Bool.and_eq_true] at h
    unfold Memory.set
    split
    · simp only [Memory.wf, Bool.and_eq_true]
      exact ⟨Memory.above_set v h.1 ‹_›, ih h.2⟩
    · split
      · subst k; simpa [Memory.wf] using h
      · have hak : a < k := by omega
        simp only [Memory.wf, Bool.and_eq_true]
        refine ⟨?_, h⟩
        have := Memory.above_mono h.1 (Nat.le_of_lt hak)
        simpa [Memory.above, hak] using this

/-- A write inside the capacity keeps every listed address inside it. -/
theorem Memory.within_set {m : Memory} {a n : Nat} (v : Byte) (h : m.within n = true) (ha : a < n) :
    (m.set a v).within n = true := by
  induction m with
  | nil => simpa [Memory.set, Memory.within] using ha
  | cons d m ih =>
    obtain ⟨k, w⟩ := d
    simp only [Memory.within, List.all_cons, Bool.and_eq_true, decide_eq_true_eq] at h ih
    unfold Memory.set
    split
    · simpa [Memory.within] using ⟨h.1, by simpa using ih h.2⟩
    · split
      · simpa [Memory.within, ha] using h.2
      · simpa [Memory.within, ha] using h

/-- A write inside the capacity keeps a memory in order. -/
theorem Memory.ok_set {m : Memory} {a n : Nat} (v : Byte) (h : m.ok n = true) (ha : a < n) :
    (m.set a v).ok n = true := by
  simp only [Memory.ok, Bool.and_eq_true] at *
  exact ⟨Memory.wf_set a v h.1, Memory.within_set v h.2 ha⟩

@[simp] theorem Memory.ok_nil (n : Nat) : Memory.ok [] n = true := rfl

/-- The memories that `resetWith` leaves are in order: nothing is listed. -/
theorem State.memOk_resetWith (c : Caps) : (State.resetWith c).memOk = true := rfl

/-- All memories of a state are in order, said space by space. -/
theorem State.memOk_iff (s : State) : s.memOk = true ↔ ∀ S, (s.mem S).ok (s.caps.of S) = true := by
  simp only [State.memOk, Bool.and_eq_true]
  constructor
  · rintro ⟨⟨h1, h2⟩, h3⟩ S
    cases S
    · exact h1
    · exact h2
    · exact h3
  · intro h
    exact ⟨⟨h .pix, h .pay⟩, h .out⟩

/-- A write to an address that exists keeps the memories in order. -/
theorem State.memOk_write {s : State} (S : Space) {a : Nat} (v : Byte) (h : s.memOk = true) (ha : a < s.caps.of S) :
    (s.write S a v).memOk = true := by
  rw [State.memOk_iff] at *
  intro T
  by_cases hT : T = S
  · subst hT; simpa using Memory.ok_set v (h T) ha
  · simpa [hT] using h T

/-- The host's list of bytes at addresses that exist keeps the memories in order. -/
theorem State.memOk_writeList {S : Space} (vs : List Byte) {s : State} {a : Nat} (h : s.memOk = true)
    (ha : vs = [] ∨ a + vs.length ≤ s.caps.of S) : (s.writeList S a vs).memOk = true := by
  induction vs generalizing s a with
  | nil => exact h
  | cons v vs ih =>
    simp only [List.length_cons, reduceCtorEq, false_or] at ha
    exact ih (State.memOk_write S v h (by omega)) (by simp only [State.write_caps]; omega)

/-! ### The host's list of bytes -/

theorem State.writeList_fields (vs : List Byte) (s : State) (S : Space) (a : Nat) :
    (s.writeList S a vs).desc = s.desc ∧ (s.writeList S a vs).status = s.status ∧
    (s.writeList S a vs).result = s.result ∧ (s.writeList S a vs).run = s.run ∧
    (s.writeList S a vs).rnd = s.rnd ∧ (s.writeList S a vs).script = s.script ∧
    (s.writeList S a vs).seen = s.seen ∧ (s.writeList S a vs).resets = s.resets ∧
    (s.writeList S a vs).caps = s.caps := by
  induction vs generalizing s a with
  | nil => simp [State.writeList]
  | cons v vs ih => simpa [State.writeList] using ih (s.write S a v) (a + 1)

/-- What the host's list of bytes leaves in the memories. -/
theorem State.read_writeList (vs : List Byte) (s : State) (S T : Space) (a b : Nat) :
    (s.writeList S a vs).read T b =
      if T = S ∧ a ≤ b then (vs[b - a]?).getD (s.read T b) else s.read T b := by
  induction vs generalizing s a with
  | nil => simp [State.writeList]
  | cons v vs ih =>
    rw [State.writeList, ih (s.write S a v) (a + 1), State.read_write]
    by_cases hT : T = S
    · by_cases hba : b = a
      · subst hba; simp [hT]
      · by_cases hlt : a ≤ b
        · have : b - a = (b - (a + 1)) + 1 := by omega
          have h2 : a + 1 ≤ b := by omega
          simp [hT, hba, hlt, h2, this]
        · have h2 : ¬ a + 1 ≤ b := by omega
          simp [hT, hba, hlt, h2]
    · simp [hT]

end Sys2Proof.Machine
end

