-- ==== Sys2Proof/Laws/Codec.lean ====
section
/-! SUPPORT. What the passes of the codec do, said once: ENCODE as one pass over its slots in order (R147), with what it
leaves in every byte and in the source (R153, R154, R157), and DECODE byte by byte (R149). -/

namespace Sys2Proof.Machine

/-! ### Loops -/

/-- A property that the first `n` rounds of a loop keep holds after them. -/
theorem loop_induct {α : Type} {f : Nat → α → α} {x : α} (P : Nat → α → Prop) (h0 : P 0 x) (n : Nat)
    (hs : ∀ k y, k < n → P k y → P (k + 1) (f k y)) : P n (loop f n x) := by
  induction n with
  | zero => exact h0
  | succ n ih => exact hs n _ (Nat.lt_succ_self n) (ih fun k y hk => hs k y (Nat.lt_succ_of_lt hk))

/-! ### ENCODE: one pass over the slots -/

/-- ENCODE's first `k` slots, one after another. -/
def encodeSlots (p : Pair) (k : Nat) (s : State) : State :=
  loop (fun k s => encodeSlot p (k / 8) (s.read .pay (k / 8)) (k % 8) s) k s

theorem encodeSlots_succ (p : Pair) (k : Nat) (s : State) :
    encodeSlots p (k + 1) s =
      encodeSlot p (k / 8) ((encodeSlots p k s).read .pay (k / 8)) (k % 8) (encodeSlots p k s) := rfl

/-- What one slot operation leaves alone: everything but PIX and the source. -/
theorem encodeSlot_frame (p : Pair) (b : Nat) (pb : Byte) (i : Nat) (s : State) :
    (encodeSlot p b pb i s).desc = s.desc ∧ (encodeSlot p b pb i s).status = s.status ∧
    (encodeSlot p b pb i s).result = s.result ∧ (encodeSlot p b pb i s).pay = s.pay ∧
    (encodeSlot p b pb i s).out = s.out ∧ (encodeSlot p b pb i s).run = s.run ∧
    (encodeSlot p b pb i s).script = s.script ∧ (encodeSlot p b pb i s).seen = s.seen ∧
    (encodeSlot p b pb i s).resets = s.resets ∧ (encodeSlot p b pb i s).caps = s.caps :=
  ⟨rfl, rfl, rfl, rfl, rfl, rfl, rfl, rfl, rfl, rfl⟩

/-- What one slot operation does: the channel gets fixup's value, the source moves on by the draw it took. -/
theorem encodeSlot_read (p : Pair) (b : Nat) (pb : Byte) (i : Nat) (s : State) (S : Space) (a : Nat) :
    (encodeSlot p b pb i s).read S a =
      if S = .pix ∧ a = addr p b i then fixupValue (s.read .pix (addr p b i)) (bit pb i) (s.rnd.answer 0)
      else s.read S a := by
  simp only [encodeSlot, fixup_eq, State.withRnd_read, State.read_write]

theorem encodeSlot_rnd (p : Pair) (b : Nat) (pb : Byte) (i : Nat) (s : State) :
    (encodeSlot p b pb i s).rnd = s.rnd.skip (interiorMismatch (s.read .pix (addr p b i)) (bit pb i)).toNat := by
  simp [encodeSlot, fixup_eq]

theorem encodeSlot_memOk {p : Pair} {b : Nat} {pb : Byte} {i : Nat} {s : State} (h : s.memOk = true)
    (ha : addr p b i < s.caps.pix) : (encodeSlot p b pb i s).memOk = true :=
  State.memOk_write .pix _ h ha

theorem encodeSlots_frame (p : Pair) (k : Nat) (s : State) :
    (encodeSlots p k s).desc = s.desc ∧ (encodeSlots p k s).status = s.status ∧
    (encodeSlots p k s).result = s.result ∧ (encodeSlots p k s).pay = s.pay ∧
    (encodeSlots p k s).out = s.out ∧ (encodeSlots p k s).run = s.run ∧
    (encodeSlots p k s).script = s.script ∧ (encodeSlots p k s).seen = s.seen ∧
    (encodeSlots p k s).resets = s.resets ∧ (encodeSlots p k s).caps = s.caps := by
  induction k with
  | zero => exact ⟨rfl, rfl, rfl, rfl, rfl, rfl, rfl, rfl, rfl, rfl⟩
  | succ k ih => exact ih

/-- The payload is read as it was at START. -/
theorem encodeSlots_read_pay (p : Pair) (k : Nat) (s : State) (a : Nat) :
    (encodeSlots p k s).read .pay a = s.read .pay a := by
  obtain ⟨-, -, -, hp, -, -, -, -, hr, -⟩ := encodeSlots_frame p k s
  simp [State.read, State.mem, hp, hr]

theorem encodeSlots_read_out (p : Pair) (k : Nat) (s : State) (a : Nat) :
    (encodeSlots p k s).read .out a = s.read .out a := by
  obtain ⟨-, -, -, -, ho, -, -, -, hr, -⟩ := encodeSlots_frame p k s
  simp [State.read, State.mem, ho, hr]

/-- A byte of PIX that is no slot of the first `k` keeps its value (R59, R154). -/
theorem encodeSlots_read_other (p : Pair) {k : Nat} (s : State) {a : Nat} (h : ∀ j, j < k → slotAddr p j ≠ a) :
    (encodeSlots p k s).read .pix a = s.read .pix a := by
  induction k with
  | zero => rfl
  | succ k ih =>
    have hk : ¬ (a = addr p (k / 8) (k % 8)) := fun e => h k (Nat.lt_succ_self k) (by rw [slotAddr, e])
    rw [encodeSlots_succ, encodeSlot_read]
    simp [hk, ih fun j hj => h j (Nat.lt_succ_of_lt hj)]

/-- A slot not yet visited holds its value at START (R157). -/
theorem encodeSlots_read_later (p : Pair) {j k : Nat} (s : State) (h : k ≤ j) :
    (encodeSlots p k s).read .pix (slotAddr p j) = slotValue p s j :=
  encodeSlots_read_other p s fun i hi e => by have := slotAddr_inj p e; omega

/-- The source after the first `k` slots: one position on for each interior mismatch (R157). -/
theorem encodeSlots_rnd (p : Pair) (k : Nat) (s : State) :
    (encodeSlots p k s).rnd = s.rnd.skip (drawsBefore p s k) := by
  induction k with
  | zero => exact (Source.skip_zero s.rnd).symm
  | succ k ih =>
    have hv := encodeSlots_read_later p s (Nat.le_refl k)
    rw [encodeSlots_succ, encodeSlot_rnd, ih, Source.skip_skip, encodeSlots_read_pay]
    unfold slotAddr at hv
    rw [hv]
    rfl

/-- A visited slot holds fixup's value, for the draw that is its own (R147). -/
theorem encodeSlots_read_slot (p : Pair) {j k : Nat} (s : State) (h : j < k) :
    (encodeSlots p k s).read .pix (slotAddr p j) =
      fixupValue (slotValue p s j) (slotBit s j) (s.rnd.answer (drawsBefore p s j)) := by
  induction k with
  | zero => omega
  | succ k ih =>
    rw [encodeSlots_succ, encodeSlot_read]
    by_cases hjk : j = k
    · subst hjk
      have hv := encodeSlots_read_later p s (Nat.le_refl j)
      rw [if_pos ⟨rfl, rfl⟩, encodeSlots_rnd, Source.answer_skip, encodeSlots_read_pay]
      unfold slotAddr at hv
      rw [hv]
      simp [slotBit]
    · have hne : slotAddr p j ≠ addr p (k / 8) (k % 8) := fun e => hjk (slotAddr_inj p e)
      simp [hne, ih (by omega)]

/-- The pass keeps the memories in order when every slot lies inside PIX. -/
theorem encodeSlots_memOk {p : Pair} {k : Nat} {s : State} (h : s.memOk = true)
    (ha : ∀ j, j < k → slotAddr p j < s.caps.pix) : (encodeSlots p k s).memOk = true := by
  induction k with
  | zero => exact h
  | succ k ih =>
    have hc : (encodeSlots p k s).caps = s.caps := (encodeSlots_frame p k s).2.2.2.2.2.2.2.2.2
    have hk : slotAddr p k < (encodeSlots p k s).caps.pix := hc ▸ ha k (Nat.lt_succ_self k)
    exact encodeSlot_memOk (ih fun j hj => ha j (Nat.lt_succ_of_lt hj)) hk

theorem encodeBytes_succ (p : Pair) (n : Nat) (s : State) :
    encodeBytes p (n + 1) s =
      loop (encodeSlot p n ((encodeBytes p n s).read .pay n)) 8 (encodeBytes p n s) := by
  unfold encodeBytes
  rw [loop, encodeByte]

/-- The first `i` slots of byte `n` continue the pass over the slots. -/
theorem encodeByte_slots (p : Pair) (n : Nat) (s : State) {i : Nat} (hi : i ≤ 8) :
    loop (encodeSlot p n (s.read .pay n)) i (encodeSlots p (8 * n) s) = encodeSlots p (8 * n + i) s := by
  induction i with
  | zero => simp only [loop, Nat.add_zero]
  | succ i ih =>
    have h1 : (8 * n + i) / 8 = n := by omega
    have h2 : (8 * n + i) % 8 = i := by omega
    rw [loop, ih (by omega), ← Nat.add_assoc, encodeSlots_succ, encodeSlots_read_pay, h1, h2]

/-- The two loops of R147 are one pass over the slots. -/
theorem encodeBytes_eq_slots (p : Pair) (n : Nat) (s : State) : encodeBytes p n s = encodeSlots p (8 * n) s := by
  induction n with
  | zero => simp only [encodeBytes, encodeSlots, loop]
  | succ n ih => rw [encodeBytes_succ, ih, encodeSlots_read_pay, encodeByte_slots p n s (Nat.le_refl 8), Nat.mul_succ]

/-! ### DECODE -/

/-- The bits of a decoded byte are the parities of its slots (R149). -/
theorem bit_decodedByte (s : State) (p : Pair) (b : Nat) {i : Nat} (hi : i < 8) :
    bit (decodedByte s p b) i = parity (s.read .pix (addr p b i)) := by
  have h : ∀ n, n ≤ 8 → ∀ j, j < n →
      bit (loop (decodeSlot s p b) n 0) j = parity (s.read .pix (addr p b j)) := by
    intro n hn
    induction n with
    | zero => intro j hj; omega
    | succ n ih =>
      intro j hj
      rw [loop, decodeSlot, bit_putBit _ _ (by omega) (by omega)]
      by_cases hjn : j = n
      · rw [if_pos hjn, hjn]
      · rw [if_neg hjn, ih (by omega) j (by omega)]
  exact h 8 (Nat.le_refl 8) i hi

/-- A decoded byte depends on its eight slots only. -/
theorem decodedByte_congr {s t : State} {p : Pair} {b : Nat}
    (h : ∀ i, i < 8 → s.read .pix (addr p b i) = t.read .pix (addr p b i)) :
    decodedByte s p b = decodedByte t p b :=
  byte_ext fun i hi => by rw [bit_decodedByte s p b hi, bit_decodedByte t p b hi, h i hi]

/-- What DECODE's pass leaves alone: everything but OUT. -/
theorem decodeBytes_frame (p : Pair) (n : Nat) (s : State) :
    (decodeBytes p n s).desc = s.desc ∧ (decodeBytes p n s).status = s.status ∧
    (decodeBytes p n s).result = s.result ∧ (decodeBytes p n s).pix = s.pix ∧
    (decodeBytes p n s).pay = s.pay ∧ (decodeBytes p n s).run = s.run ∧
    (decodeBytes p n s).rnd = s.rnd ∧ (decodeBytes p n s).script = s.script ∧
    (decodeBytes p n s).seen = s.seen ∧ (decodeBytes p n s).resets = s.resets ∧
    (decodeBytes p n s).caps = s.caps := by
  induction n with
  | zero => exact ⟨rfl, rfl, rfl, rfl, rfl, rfl, rfl, rfl, rfl, rfl, rfl⟩
  | succ n ih => exact ih

theorem decodeBytes_read_pix (p : Pair) (n : Nat) (s : State) (a : Nat) :
    (decodeBytes p n s).read .pix a = s.read .pix a := by
  obtain ⟨-, -, -, hp, -, -, -, -, -, hr, -⟩ := decodeBytes_frame p n s
  simp [State.read, State.mem, hp, hr]

theorem decodeBytes_read_pay (p : Pair) (n : Nat) (s : State) (a : Nat) :
    (decodeBytes p n s).read .pay a = s.read .pay a := by
  obtain ⟨-, -, -, -, hp, -, -, -, -, hr, -⟩ := decodeBytes_frame p n s
  simp [State.read, State.mem, hp, hr]

/-- OUT after DECODE's pass: the bytes produced, and every other byte as before (R149). -/
theorem decodeBytes_read_out (p : Pair) (n : Nat) (s : State) (b : Nat) :
    (decodeBytes p n s).read .out b = if b < n then decodedByte s p b else s.read .out b := by
  induction n with
  | zero => simp [decodeBytes, loop]
  | succ n ih =>
    have hd : decodedByte (decodeBytes p n s) p n = decodedByte s p n :=
      decodedByte_congr fun i _ => decodeBytes_read_pix p n s _
    change (decodeByte p n (decodeBytes p n s)).read .out b = _
    rw [decodeByte, State.read_write, hd, ih]
    by_cases hb : b = n
    · simp [hb]
    · have : b < n + 1 ↔ b < n := by omega
      simp [hb, this]

/-- The pass keeps the memories in order when every byte it produces lies inside OUT. -/
theorem decodeBytes_memOk {p : Pair} {n : Nat} {s : State} (h : s.memOk = true) (hn : n ≤ s.caps.out) :
    (decodeBytes p n s).memOk = true := by
  induction n with
  | zero => exact h
  | succ n ih =>
    have hc : (decodeBytes p n s).caps = s.caps := (decodeBytes_frame p n s).2.2.2.2.2.2.2.2.2.2
    have hb : n < (decodeBytes p n s).caps.out := hc ▸ hn
    exact State.memOk_write .out _ (ih (by omega)) hb

end Sys2Proof.Machine
end

