-- ==== Sys2Proof/Laws/Flags.lean ====
section
/-! SUPPORT. The fields of the STATUS values the rules write (R29). -/

namespace Sys2Proof.Machine

@[simp] theorem phaseOf_idle : phaseOf statusIdle = .idle := by decide
@[simp] theorem phaseOf_busy : phaseOf statusBusy = .busy := by decide
@[simp] theorem phaseOf_done (b : Bool) : phaseOf (statusDone b) = .done := by cases b <;> decide
@[simp] theorem phaseOf_fault (c : Cause) : phaseOf (statusFault c) = .fault := by cases c <;> decide
@[simp] theorem phaseOf_zero : phaseOf 0 = .idle := by decide

@[simp] theorem rvalidOf_idle : rvalidOf statusIdle = false := by decide
@[simp] theorem rvalidOf_busy : rvalidOf statusBusy = false := by decide
@[simp] theorem rvalidOf_done (b : Bool) : rvalidOf (statusDone b) = b := by cases b <;> decide
@[simp] theorem rvalidOf_fault (c : Cause) : rvalidOf (statusFault c) = false := by cases c <;> decide

@[simp] theorem causeOf_idle : causeOf statusIdle = 0 := by decide
@[simp] theorem causeOf_busy : causeOf statusBusy = 0 := by decide
@[simp] theorem causeOf_done (b : Bool) : causeOf (statusDone b) = 0 := by cases b <;> decide
@[simp] theorem causeOf_fault (c : Cause) : causeOf (statusFault c) = c.code := by cases c <;> decide

/-- The four numbers a fault leaves in STATUS (R251). -/
theorem statusFault_eq (c : Cause) : statusFault c = match c with
    | .illegalCommand => 0x13
    | .descriptorRange => 0x23
    | .bitIndexRange => 0x33
    | .decodeLength => 0x43 := by cases c <;> decide

theorem statusDone_false : statusDone false = 0x02 := by decide
theorem statusDone_true : statusDone true = 0x06 := by decide

@[simp] theorem State.accept_phase (s : State) : s.accept.phase = .busy := phaseOf_busy
@[simp] theorem State.complete_phase (s : State) : s.complete.phase = .done := phaseOf_done false
@[simp] theorem State.completeWith_phase (s : State) (v : Nat) : (s.completeWith v).phase = .done := phaseOf_done true
@[simp] theorem State.raiseFault_phase (s : State) (c : Cause) : (s.raiseFault c).phase = .fault := phaseOf_fault c

/-- A state keeps its STATUS in order when STATUS and RESULT stay. -/
theorem State.statusOk_congr {s t : State} (h1 : t.status = s.status) (h2 : t.result = s.result) :
    t.statusOk = s.statusOk := by simp [State.statusOk, State.phase, h1, h2]

/-- Fault entry from a cleared RESULT leaves STATUS in order. -/
theorem State.statusOk_raiseFault (s : State) (c : Cause) (h : s.result = 0) : (s.raiseFault c).statusOk = true := by
  cases c <;> simp [State.statusOk, h] <;> decide

/-- Completion without a value from a cleared RESULT leaves STATUS in order. -/
theorem State.statusOk_complete (s : State) (h : s.result = 0) : s.complete.statusOk = true := by
  simp [State.statusOk, h]; decide

/-- Completion with a value leaves STATUS in order. -/
theorem State.statusOk_completeWith (s : State) (v : Nat) : (s.completeWith v).statusOk = true := by
  simp [State.statusOk]; decide

end Sys2Proof.Machine
end

