-- ==== Sys2Proof/Laws/Command.lean ====
section
/-! SUPPORT. What a command can do, said once: `exec` of any command is one of two things, a fault of its checks with
nothing else changed, or its body on the accepted state (R230, R233). -/

namespace Sys2Proof.Machine

/-- The body of a command: its rule, run on the latched descriptor after the checks have passed. -/
def bodyOf : Kind → Descriptor → State → State
  | .estimate p, d, s => s.completeWith (capacity p d.pixels)
  | .encode p, d, s => (encodeBytes p (nEnc p d) s).complete
  | .decode p, d, s => (decodeBytes p (nDec p d) s).complete
  | .getbit, d, s => getbitBody d s
  | .setbit, d, s => setbitBody d s
  | .fixup, d, s => fixupBody d s

/-- Every command is the shared shape with its own body. -/
theorem exec_eq_command (i : Instr) (s : State) : exec i s = s.command i.kind (bodyOf i.kind) := by cases i <;> rfl

theorem exec_of_check_some {i : Instr} {s : State} {c : Cause} (h : startCheck i.kind s.desc s.caps = some c) :
    exec i s = .next (s.accept.raiseFault c) := by rw [exec_eq_command, State.command, h]

theorem exec_of_check_none {i : Instr} {s : State} (h : startCheck i.kind s.desc s.caps = none) :
    exec i s = .next (bodyOf i.kind s.desc s.accept) := by rw [exec_eq_command, State.command, h]

/-- What one command can answer: the fault of its first failing check, or its body's state; nothing else. -/
theorem exec_cases (i : Instr) (s : State) :
    (∃ c, startCheck i.kind s.desc s.caps = some c ∧ exec i s = .next (s.accept.raiseFault c)) ∨
    (startCheck i.kind s.desc s.caps = none ∧ exec i s = .next (bodyOf i.kind s.desc s.accept)) := by
  cases h : startCheck i.kind s.desc s.caps with
  | some c => exact .inl ⟨c, rfl, exec_of_check_some h⟩
  | none => exact .inr ⟨rfl, exec_of_check_none h⟩

@[simp] theorem kind_estimateOf (p : Pair) : (estimateOf p).kind = .estimate p := by cases p <;> rfl
@[simp] theorem kind_encodeOf (p : Pair) : (encodeOf p).kind = .encode p := by cases p <;> rfl
@[simp] theorem kind_decodeOf (p : Pair) : (decodeOf p).kind = .decode p := by cases p <;> rfl

/-! ### The bodies of the unit commands, where their check has passed -/

theorem getbitBody_of_lt {d : Descriptor} {s : State} (h : d.argIndex < 8) :
    getbitBody d s = s.completeWith (bit d.argByte d.argIndex).toNat := by
  simp [getbitBody, getBit, Nat.not_le.mpr h]

theorem setbitBody_of_lt {d : Descriptor} {s : State} (h : d.argIndex < 8) :
    setbitBody d s = s.completeWith (putBit d.argByte d.argIndex d.argValue).toNat := by
  simp [setbitBody, setBit, Nat.not_le.mpr h]

theorem fixupBody_eq (d : Descriptor) (s : State) :
    fixupBody d s = State.completeWith { s with rnd := s.rnd.skip (interiorMismatch d.argByte d.argValue).toNat }
      (fixupValue d.argByte d.argValue (s.rnd.answer 0)).toNat := by
  simp [fixupBody, fixup_eq]

/-! ### What the checks say -/

theorem startCheck_encode_none {p : Pair} {d : Descriptor} {c : Caps} :
    startCheck (.encode p) d c = none ↔ d.pixels * nch p ≤ c.pix ∧ d.plen.toNat ≤ c.pay := by
  simp only [startCheck]
  split
  · simp; omega
  · simp; omega

theorem startCheck_decode_none {p : Pair} {d : Descriptor} {c : Caps} :
    startCheck (.decode p) d c = none ↔
      d.pixels * nch p ≤ c.pix ∧ d.olen.toNat ≤ c.out ∧ d.len.toNat ≤ d.olen.toNat := by
  simp only [startCheck]
  split
  · simp; omega
  · split
    · simp; omega
    · simp; omega

/-! ### What the bodies leave alone -/

/-- The parts of the state that no command's body changes: the descriptor, PAY, the host and the parameters. -/
theorem bodyOf_frame (k : Kind) (d : Descriptor) (s : State) :
    (bodyOf k d s).desc = s.desc ∧ (bodyOf k d s).pay = s.pay ∧ (bodyOf k d s).script = s.script ∧
    (bodyOf k d s).seen = s.seen ∧ (bodyOf k d s).resets = s.resets ∧ (bodyOf k d s).caps = s.caps := by
  cases k with
  | estimate p => exact ⟨rfl, rfl, rfl, rfl, rfl, rfl⟩
  | encode p =>
    obtain ⟨h1, -, -, h4, -, -, h7, h8, h9, h10⟩ := encodeSlots_frame p (8 * nEnc p d) s
    simpa [bodyOf, encodeBytes_eq_slots] using ⟨h1, h4, h7, h8, h9, h10⟩
  | decode p =>
    obtain ⟨h1, -, -, -, h5, -, -, h8, h9, h10, h11⟩ := decodeBytes_frame p (nDec p d) s
    simpa [bodyOf] using ⟨h1, h5, h8, h9, h10, h11⟩
  | getbit => simp only [bodyOf, getbitBody]; split <;> exact ⟨rfl, rfl, rfl, rfl, rfl, rfl⟩
  | setbit => simp only [bodyOf, setbitBody]; split <;> exact ⟨rfl, rfl, rfl, rfl, rfl, rfl⟩
  | fixup => exact ⟨rfl, rfl, rfl, rfl, rfl, rfl⟩

/-- A body ends with no command running. -/
theorem bodyOf_run (k : Kind) (d : Descriptor) (s : State) : (bodyOf k d s).run = none := by
  cases k with
  | getbit => simp only [bodyOf, getbitBody]; split <;> rfl
  | setbit => simp only [bodyOf, setbitBody]; split <;> rfl
  | _ => rfl

end Sys2Proof.Machine
end

