-- ==== Sys2Proof/Laws/PerInstr.lean ====
section
/-! SUPPORT. Statements about every command as syntax, proved one constructor at a time. -/

namespace Sys2Proof.Laws.WordLegal

/-- A command's fields are legal, its word holds exactly these fields, and the reserved bits of the word are 0 (R80,
R84). -/
def Statement : Instr → Prop := fun i => i.wf = true ∧ fieldsOf (encode i) = i.fields ∧ (encode i).toNat < 64

theorem estimateGaAlpha : Statement .estimateGaAlpha := by unfold Statement; decide
theorem encodeGaAlpha : Statement .encodeGaAlpha := by unfold Statement; decide
theorem decodeGaAlpha : Statement .decodeGaAlpha := by unfold Statement; decide
theorem getbit : Statement .getbit := by unfold Statement; decide
theorem setbit : Statement .setbit := by unfold Statement; decide
theorem fixup : Statement .fixup := by unfold Statement; decide
theorem estimateRgbaAlpha : Statement .estimateRgbaAlpha := by unfold Statement; decide
theorem encodeRgbaAlpha : Statement .encodeRgbaAlpha := by unfold Statement; decide
theorem decodeRgbaAlpha : Statement .decodeRgbaAlpha := by unfold Statement; decide
theorem estimateGaAll : Statement .estimateGaAll := by unfold Statement; decide
theorem encodeGaAll : Statement .encodeGaAll := by unfold Statement; decide
theorem decodeGaAll : Statement .decodeGaAll := by unfold Statement; decide
theorem estimateRgbAll : Statement .estimateRgbAll := by unfold Statement; decide
theorem encodeRgbAll : Statement .encodeRgbAll := by unfold Statement; decide
theorem decodeRgbAll : Statement .decodeRgbAll := by unfold Statement; decide
theorem estimateRgbaAll : Statement .estimateRgbaAll := by unfold Statement; decide
theorem encodeRgbaAll : Statement .encodeRgbaAll := by unfold Statement; decide
theorem decodeRgbaAll : Statement .decodeRgbaAll := by unfold Statement; decide

end Sys2Proof.Laws.WordLegal
end

