-- ==== Sys2Proof/Laws/SlotOrder.lean ====
section
/-! SUPPORT. The slots of a codec command in any order (R68): what a slot holds afterwards depends on the order only through
the draw it receives, and ENCODE and DECODE are the pass in ascending order. -/

namespace Sys2Proof.Machine

theorem encodeInOrder_cons (p : Pair) (k : Nat) (ks : List Nat) (s : State) :
    encodeInOrder p (k :: ks) s =
      encodeInOrder p ks (encodeSlot p (k / 8) (s.read .pay (k / 8)) (k % 8) s) := rfl

theorem encodeInOrder_append (p : Pair) (ks js : List Nat) (s : State) :
    encodeInOrder p (ks ++ js) s = encodeInOrder p js (encodeInOrder p ks s) := by
  induction ks generalizing s with
  | nil => rfl
  | cons k ks ih => exact ih _

/-- ENCODE's own pass is the ascending order (R147). -/
theorem encodeInOrder_range (p : Pair) (n : Nat) (s : State) : encodeInOrder p (List.range n) s = encodeSlots p n s := by
  induction n with
  | zero => rfl
  | succ n ih => rw [List.range_succ, encodeInOrder_append, ih, encodeSlots_succ]; rfl

/-! ### One slot operation, seen from the other slots -/

theorem slotValue_encodeSlot (p : Pair) {j k : Nat} (pb : Byte) (s : State) (h : j ≠ k) :
    slotValue p (encodeSlot p (k / 8) pb (k % 8) s) j = slotValue p s j := by
  have hne : slotAddr p j ≠ addr p (k / 8) (k % 8) := fun e => h (slotAddr_inj p e)
  rw [slotValue, encodeSlot_read, if_neg (fun c => hne c.2), slotValue]

theorem slotBit_encodeSlot (p : Pair) (b : Nat) (pb : Byte) (i : Nat) (s : State) (k : Nat) :
    slotBit (encodeSlot p b pb i s) k = slotBit s k := by
  rw [slotBit, encodeSlot_read, if_neg (by simp), slotBit]

/-- The draws before a slot are counted by the values at START, since no slot changes another (R59). -/
theorem drawsInOrder_encodeSlot (p : Pair) {j : Nat} (pb : Byte) (s : State) {ks : List Nat} (h : j ∉ ks) (k : Nat) :
    drawsInOrder p (encodeSlot p (j / 8) pb (j % 8) s) ks k = drawsInOrder p s ks k := by
  induction ks with
  | nil => rfl
  | cons a ks ih =>
    rw [List.mem_cons, not_or] at h
    rw [drawsInOrder, drawsInOrder, ih h.2, slotValue_encodeSlot p pb s (Ne.symm h.1), slotBit_encodeSlot]

/-! ### ENCODE in any order -/

/-- A pass over slots changes nothing but slots of PIX (R59). -/
theorem encodeInOrder_read_other (p : Pair) (ks : List Nat) (s : State) {S : Space} {a : Nat}
    (h : S = .pix → ∀ k ∈ ks, a ≠ slotAddr p k) : (encodeInOrder p ks s).read S a = s.read S a := by
  induction ks generalizing s with
  | nil => rfl
  | cons k ks ih =>
    rw [encodeInOrder_cons, ih _ fun hS j hj => h hS j (List.mem_cons_of_mem _ hj), encodeSlot_read,
      if_neg fun c => h c.1 k List.mem_cons_self c.2]

/-- A visited slot holds fixup's value of its own value at START, its payload bit and its own draw, whatever the order
(R68). -/
theorem encodeInOrder_read_slot (p : Pair) {ks : List Nat} (s : State) (hn : ks.Nodup) {k : Nat} (hk : k ∈ ks) :
    (encodeInOrder p ks s).read .pix (slotAddr p k) =
      fixupValue (slotValue p s k) (slotBit s k) (s.rnd.answer (drawsInOrder p s ks k)) := by
  induction ks generalizing s with
  | nil => cases hk
  | cons j ks ih =>
    rw [List.nodup_cons] at hn
    rw [encodeInOrder_cons]
    by_cases hjk : j = k
    · subst hjk
      have ho : ∀ i ∈ ks, slotAddr p j ≠ slotAddr p i := fun i hi e => hn.1 (slotAddr_inj p e ▸ hi)
      rw [encodeInOrder_read_other p ks _ fun _ => ho, encodeSlot_read, if_pos ⟨rfl, rfl⟩, drawsInOrder, if_pos rfl]
      rfl
    · have hk' : k ∈ ks := (List.mem_cons.mp hk).resolve_left (Ne.symm hjk)
      rw [ih _ hn.2 hk', slotValue_encodeSlot p _ s (Ne.symm hjk), slotBit_encodeSlot, drawsInOrder_encodeSlot p _ s hn.1,
        encodeSlot_rnd, Source.answer_skip, drawsInOrder, if_neg hjk]
      rfl

/-- Slots visited after slot `k` do not count. -/
theorem drawsInOrder_append (p : Pair) (s : State) {ks : List Nat} (js : List Nat) {k : Nat} (hk : k ∈ ks) :
    drawsInOrder p s (ks ++ js) k = drawsInOrder p s ks k := by
  induction ks with
  | nil => cases hk
  | cons a ks ih =>
    rw [List.cons_append, drawsInOrder, drawsInOrder]
    split
    · rfl
    · rw [ih ((List.mem_cons.mp hk).resolve_left (Ne.symm ‹_›))]

/-- The draws from slot `m` up to slot `k`, in the ascending order. -/
theorem drawsInOrder_range' (p : Pair) (s : State) {m l k : Nat} (h : m + l = k) :
    drawsInOrder p s (List.range' m (l + 1)) k + drawsBefore p s m = drawsBefore p s k := by
  induction l generalizing m with
  | zero => rw [List.range'_succ, drawsInOrder, if_pos (by omega), ← h]; simp
  | succ l ih =>
    rw [List.range'_succ, drawsInOrder, if_neg (by omega), ← ih (m := m + 1) (by omega), drawsBefore]
    omega

/-- In the ascending order the draws before a slot are those of R157. -/
theorem drawsInOrder_range (p : Pair) (s : State) {k n : Nat} (h : k < n) :
    drawsInOrder p s (List.range n) k = drawsBefore p s k := by
  have e := List.range'_append_1 (s := 0) (m := k + 1) (n := n - (k + 1))
  rw [Nat.zero_add, Nat.add_sub_cancel' h] at e
  rw [List.range_eq_range', ← e, drawsInOrder_append p s _ (by simp)]
  simpa [drawsBefore] using drawsInOrder_range' p s (Nat.zero_add k)

/-! ### DECODE in any order -/

theorem decodeInOrder_cons (p : Pair) (k : Nat) (ks : List Nat) (s : State) :
    decodeInOrder p (k :: ks) s =
      decodeInOrder p ks (s.write .out (k / 8) (decodeSlot s p (k / 8) (k % 8) (s.read .out (k / 8)))) := rfl

/-- A pass over slots changes nothing but OUT. -/
theorem decodeInOrder_read_other (p : Pair) (ks : List Nat) (s : State) {S : Space} (a : Nat) (h : S ≠ .out) :
    (decodeInOrder p ks s).read S a = s.read S a := by
  induction ks generalizing s with
  | nil => rfl
  | cons k ks ih => rw [decodeInOrder_cons, ih, State.read_write_space _ _ _ _ h]

/-- A bit of OUT whose slot is visited is that slot's parity, and every other bit is as before, whatever the order
(R68). -/
theorem bit_decodeInOrder (p : Pair) (ks : List Nat) (s : State) (b : Nat) {i : Nat} (hi : i < 8) :
    bit ((decodeInOrder p ks s).read .out b) i =
      if 8 * b + i ∈ ks then parity (slotValue p s (8 * b + i)) else bit (s.read .out b) i := by
  induction ks generalizing s with
  | nil => rfl
  | cons k ks ih =>
    rw [decodeInOrder_cons, ih, slotValue, State.read_write_space _ _ _ _ (by decide), State.read_write]
    by_cases hk : 8 * b + i ∈ ks
    · rw [if_pos hk, if_pos (List.mem_cons_of_mem _ hk), slotValue]
    · rw [if_neg hk]
      by_cases hb : b = k / 8
      · rw [if_pos ⟨rfl, hb⟩, decodeSlot, bit_putBit _ _ (Nat.mod_lt _ (by decide)) hi]
        by_cases he : i = k % 8
        · have : 8 * b + i = k := by omega
          rw [if_pos he, if_pos (by simp [this]), this]; rfl
        · have : 8 * b + i ≠ k := by omega
          rw [if_neg he, if_neg (by simp [this, hk]), hb]
      · have : 8 * b + i ≠ k := by omega
        rw [if_neg (fun c => hb c.2), if_neg (by simp [this, hk])]

end Sys2Proof.Machine
end

