-- ==== Sys2Proof/Laws/Step.lean ====
section
/-! SUPPORT. What one step can do, said once: one inversion lemma for START, for the CLR strobe, for the core's move while
BUSY, for a turn, and for a step; and that a command does not look at what START overwrites (R230). -/

namespace Sys2Proof.Machine

/-! ### What a command does not look at -/

/-- `exec` does not depend on STATUS, RESULT and the running command: START overwrites all three (R230). -/
theorem exec_congr (i : Instr) (s : State) (st : BitVec 8) (res : BitVec 64) (r : Option Running) :
    exec i { s with status := st, result := res, run := r } = exec i s := by
  rw [exec_eq_command, exec_eq_command]; rfl

/-- What CLR can do (R231). -/
theorem State.clear_cases (s : State) :
    s.clear = s ∨ ((s.phase = .done ∨ s.phase = .fault) ∧ s.clear = { s with status := statusIdle, result := 0 }) := by
  unfold State.clear; split <;> simp_all

/-- CLR leads to IDLE from every phase but BUSY (R232). -/
theorem State.clear_phase {s : State} (h : s.phase ≠ .busy) : s.clear.phase = .idle := by
  unfold State.clear; split <;> simp_all [State.phase]

theorem exec_clear (i : Instr) (s : State) : exec i s.clear = exec i s := by
  rcases s.clear_cases with h | ⟨-, h⟩
  · rw [h]
  · rw [h]; exact exec_congr i s statusIdle 0 s.run

/-! ### The bodies, where their checks have passed -/

/-- A body whose checks have passed ends in DONE. -/
theorem bodyOf_phase {i : Instr} {s : State} (h : startCheck i.kind s.desc s.caps = none) :
    (bodyOf i.kind s.desc s.accept).phase = .done := by
  cases hk : i.kind with
  | getbit => rw [hk] at h; simp [startCheck] at h; rw [bodyOf, getbitBody_of_lt (by omega)]; simp
  | setbit => rw [hk] at h; simp [startCheck] at h; rw [bodyOf, setbitBody_of_lt (by omega)]; simp
  | estimate p => simp [bodyOf]
  | encode p => simp [bodyOf]
  | decode p => simp [bodyOf]
  | fixup => rw [bodyOf, fixupBody_eq]; simp

/-- The passes of the codec do not look at the descriptor or at the running command. -/
theorem encodeSlots_congr (p : Pair) (k : Nat) (s : State) (d : Descriptor) (r : Option Running) :
    encodeSlots p k { s with desc := d, run := r } = { encodeSlots p k s with desc := d, run := r } := by
  induction k with
  | zero => rfl
  | succ k ih => rw [encodeSlots_succ, ih]; rfl

theorem decodeBytes_congr (p : Pair) (n : Nat) (s : State) (d : Descriptor) (r : Option Running) :
    decodeBytes p n { s with desc := d, run := r } = { decodeBytes p n s with desc := d, run := r } := by
  induction n with
  | zero => rfl
  | succ n ih =>
    unfold decodeBytes at *
    rw [loop, ih]
    rfl

/-- A slot of a byte that an ENCODE or DECODE works on lies inside PIX, where the checks have passed (R57). -/
theorem addr_lt_of_work {p : Pair} {d : Descriptor} {c : Caps} {n b i : Nat} (h : d.pixels * nch p ≤ c.pix)
    (hb : b < min n (capacity p d.pixels)) (hi : i < 8) : addr p b i < c.pix :=
  Nat.lt_of_lt_of_le (addr_lt_of_lt_capacity p (Nat.lt_of_lt_of_le hb (Nat.min_le_right _ _)) hi) h

/-! ### START -/

theorem start_of_decode {s : State} {i : Instr} (h : s.phase = .idle ∨ s.phase = .done)
    (hd : decode s.desc.cmd = .ok i) : start s = exec i s := by
  unfold start
  rcases h with h | h <;> rw [h] <;> simp [hd]

theorem start_of_illegal {s : State} {why : Illegal} (h : s.phase = .idle ∨ s.phase = .done)
    (hd : decode s.desc.cmd = .illegal why) : start s = .next (s.accept.raiseFault .illegalCommand) := by
  unfold start
  rcases h with h | h <;> rw [h] <;> simp [hd]

theorem start_of_ignored {s : State} (h : s.phase = .busy ∨ s.phase = .fault) : start s = .next s := by
  unfold start
  rcases h with h | h <;> rw [h]

/-- What START can answer: it is ignored, or the command word is illegal, or the command runs. -/
theorem start_cases (s : State) :
    ∃ t, start s = .next t ∧
      ((t = s ∧ (s.phase = .busy ∨ s.phase = .fault)) ∨
       (t = s.accept.raiseFault .illegalCommand ∧ (s.phase = .idle ∨ s.phase = .done)) ∨
       ((s.phase = .idle ∨ s.phase = .done) ∧ ∃ i, decode s.desc.cmd = .ok i ∧ exec i s = .next t)) := by
  have live : (s.phase = .idle ∨ s.phase = .done) → ∃ t, start s = .next t ∧
      ((t = s ∧ (s.phase = .busy ∨ s.phase = .fault)) ∨
       (t = s.accept.raiseFault .illegalCommand ∧ (s.phase = .idle ∨ s.phase = .done)) ∨
       ((s.phase = .idle ∨ s.phase = .done) ∧ ∃ i, decode s.desc.cmd = .ok i ∧ exec i s = .next t)) := by
    intro hp
    cases hd : decode s.desc.cmd with
    | illegal why => exact ⟨_, start_of_illegal hp hd, .inr (.inl ⟨rfl, hp⟩)⟩
    | ok i =>
      rcases exec_cases i s with ⟨c, -, he⟩ | ⟨-, he⟩
      · exact ⟨_, (start_of_decode hp hd).trans he, .inr (.inr ⟨hp, i, rfl, he⟩)⟩
      · exact ⟨_, (start_of_decode hp hd).trans he, .inr (.inr ⟨hp, i, rfl, he⟩)⟩
  cases hp : s.phase with
  | idle => simpa [hp] using live (.inl hp)
  | done => simpa [hp] using live (.inr hp)
  | busy => exact ⟨s, start_of_ignored (.inl hp), .inl ⟨rfl, .inl rfl⟩⟩
  | fault => exact ⟨s, start_of_ignored (.inr hp), .inl ⟨rfl, .inr rfl⟩⟩

/-! ### The core's move while BUSY -/

/-- What the core's move can be: the end of the running command, or a slot operation of an ENCODE or a DECODE. -/
theorem tick_cases {s t : State} (h : tick s = .next t) :
    ∃ r i, s.run = some r ∧ decode r.desc.cmd = .ok i ∧
      ((r.cursor = none ∧ t = endCommand i.kind r.desc s) ∨
       ∃ c p, r.cursor = some c ∧
        ((i.kind = .encode p ∧ t = tickEncode p r.desc c s) ∨ (i.kind = .decode p ∧ t = tickDecode p r.desc c s))) := by
  unfold tick at h
  split at h
  · cases h
  · rename_i r hr
    split at h
    · cases h
    · rename_i i hi
      refine ⟨r, i, hr, hi, ?_⟩
      split at h
      · cases h; exact .inl ⟨‹_›, rfl⟩
      · rename_i c hc
        split at h <;> cases h
        · exact .inr ⟨c, _, hc, .inl ⟨‹_›, rfl⟩⟩
        · exact .inr ⟨c, _, hc, .inr ⟨‹_›, rfl⟩⟩

/-- What the end of a command leaves alone: the descriptor, the memories, the host and the parameters. -/
theorem endCommand_frame (k : Kind) (d : Descriptor) (s : State) :
    (endCommand k d s).desc = s.desc ∧ (endCommand k d s).pix = s.pix ∧ (endCommand k d s).pay = s.pay ∧
    (endCommand k d s).out = s.out ∧ (endCommand k d s).run = none ∧ (endCommand k d s).script = s.script ∧
    (endCommand k d s).seen = s.seen ∧ (endCommand k d s).resets = s.resets ∧ (endCommand k d s).caps = s.caps := by
  cases k with
  | getbit => simp only [endCommand, getbitBody]; split <;> exact ⟨rfl, rfl, rfl, rfl, rfl, rfl, rfl, rfl, rfl⟩
  | setbit => simp only [endCommand, setbitBody]; split <;> exact ⟨rfl, rfl, rfl, rfl, rfl, rfl, rfl, rfl, rfl⟩
  | _ => exact ⟨rfl, rfl, rfl, rfl, rfl, rfl, rfl, rfl, rfl⟩

/-- A launched command whose checks have passed stands at its first slot, if it has one. -/
theorem launch_of_check_none {s : State} {i : Instr} (hd : decode s.desc.cmd = .ok i)
    (hc : startCheck i.kind s.desc s.caps = none) :
    launch s = { s.accept with run := some ⟨s.desc, Cursor.first (workBytes i.kind s.desc)⟩ } := by
  unfold launch; simp only [hd, hc]

theorem launch_of_check_some {s : State} {i : Instr} {c : Cause} (hd : decode s.desc.cmd = .ok i)
    (hc : startCheck i.kind s.desc s.caps = some c) : launch s = s.accept.raiseFault c := by
  unfold launch; simp only [hd, hc]

/-! ### The cursor: slot `k` is bit `k mod 8` of byte `k div 8`, and the work has `8 n` slots (R30) -/

theorem Cursor.next_in_range {n : Nat} {c c' : Cursor} (hi : c.i ≤ 7) (hb : c.b < n) (h : c.next n = some c') :
    c'.i ≤ 7 ∧ c'.b < n := by
  unfold Cursor.next at h
  split at h
  · cases h; exact ⟨by simp only; omega, hb⟩
  · split at h <;> cases h
    exact ⟨by simp only; omega, by assumption⟩

/-- The cursor's next slot is the next number, until the work is done. -/
theorem Cursor.next_slot {n k : Nat} (ob : Byte) (hk : k < 8 * n) :
    Cursor.next n ⟨k / 8, k % 8, ob⟩ =
      if k + 1 < 8 * n then some ⟨(k + 1) / 8, (k + 1) % 8, if k % 8 < 7 then ob else 0⟩ else none := by
  unfold Cursor.next
  by_cases h7 : k % 8 < 7
  · rw [if_pos h7, if_pos (by omega), if_pos h7, show (k + 1) / 8 = k / 8 by omega, show (k + 1) % 8 = k % 8 + 1 by omega]
  · rw [if_neg h7, if_neg h7, show (k + 1) / 8 = k / 8 + 1 by omega, show (k + 1) % 8 = 0 by omega]
    by_cases hn : k + 1 < 8 * n
    · rw [if_pos hn, if_pos (by simp only; omega)]
    · rw [if_neg hn, if_neg (by simp only; omega)]

/-- One more move at the end of a run of moves. -/
theorem ticks_succ_last {n : Nat} {s t : State} (h : ticks n s = .next t) : ticks (n + 1) s = tick t := by
  induction n generalizing s with
  | zero => cases h; rw [ticks]; cases tick t <;> rfl
  | succ n ih =>
    rw [ticks] at h ⊢
    cases ht : tick s with
    | next u => rw [ht] at h; exact ih h
    | fault f => rw [ht] at h; cases h
    | refused f => rw [ht] at h; cases h

/-! ### Turns and steps -/

theorem State.isBusy_iff (s : State) : s.isBusy = true ↔ s.phase = .busy := by simp [State.isBusy]

theorem step_host {s : State} (h : s.phase ≠ .busy) : step s = hostTurn s := by
  rw [step, if_neg (by rwa [State.isBusy_iff])]

theorem step_busy {s : State} (h : s.phase = .busy) : step s = busyTurn s := by
  rw [step, if_pos (by rwa [State.isBusy_iff])]

/-- A step in which the host has the turn is its next action. -/
theorem step_act {s : State} {a : HostAct} {rest : List HostAct} (h : s.phase ≠ .busy) (hs : s.script = a :: rest) :
    step s = hostAct a { s with script := rest } := by
  rw [step_host h, hostTurn, hs]

/-- A strobe while BUSY has no effect (R230, U14). -/
theorem strobe_busy {s : State} (v : BitVec 8) (h : s.phase = .busy) : strobe v s = .next s := by
  have hc : s.clear = s := by unfold State.clear; rw [h]
  simp only [strobe, hc, ite_self, start_of_ignored (.inl h)]

/-- What can happen while BUSY: the core's move, a STATUS read, an ignored strobe, or reset. -/
theorem busyTurn_cases {s t : State} (hb : s.phase = .busy) (h : busyTurn s = .next t) :
    tick s = .next t ∨ ∃ rest,
      (s.script = .rd .status :: rest ∧ hostAct (.rd .status) { s with script := rest } = .next t) ∨
      (∃ v, s.script = .wr (.ctrl v) :: rest ∧ t = { s with script := rest }) ∨
      (s.script = .reset :: rest ∧ hostAct .reset { s with script := rest } = .next t) := by
  unfold busyTurn at h
  split at h
  · exact .inr ⟨_, .inl ⟨‹_›, h⟩⟩
  · rename_i v rest hs
    rw [hostAct, writeReg, strobe_busy (s := { s with script := rest }) v hb] at h
    cases h
    exact .inr ⟨rest, .inr (.inl ⟨v, hs, rfl⟩)⟩
  · exact .inr ⟨_, .inr (.inr ⟨‹_›, h⟩)⟩
  · exact .inl h

/-- What a step can be. -/
theorem step_cases {s t : State} (h : step s = .next t) :
    (s.phase = .busy ∧ busyTurn s = .next t) ∨
    (s.phase ≠ .busy ∧ (t = s ∨ ∃ a rest, s.script = a :: rest ∧ hostAct a { s with script := rest } = .next t)) := by
  by_cases hb : s.phase = .busy
  · exact .inl ⟨hb, step_busy hb ▸ h⟩
  · rw [step_host hb] at h
    refine .inr ⟨hb, ?_⟩
    unfold hostTurn at h
    split at h
    · cases h; exact .inl rfl
    · exact .inr ⟨_, _, ‹_›, h⟩

end Sys2Proof.Machine
end

