-- ==== Sys2Proof/Tests/Slice0.lean ====
section
/-! SUPPORT. Tests: command words written out from the field tables (R80 to R83), the well-formedness smoke tests, the
vectors of spec/95_test_vectors.md as single steps, and one witness for the hypotheses of each statement. Every
expected value is the spec's; the number of the vector stands beside it. -/

namespace Sys2Proof.Tests

open Machine

/-! ### Helpers -/

/-- The bytes `vs` from address `a` on. -/
def bytesAt (a : Nat) : List Nat → Memory
  | [] => []
  | v :: vs => (a, BitVec.ofNat 8 v) :: bytesAt (a + 1) vs

/-- The next state of an outcome that has one. -/
def after? : Host.Outcome State Fault Refusal → Option State
  | .next t => some t
  | .fault _ => none
  | .refused _ => none

theorem next_of_after? {o : Host.Outcome State Fault Refusal} {t : State} (h : after? o = some t) : o = .next t := by
  cases o <;> cases h; rfl

/-- The block after reset with the capacities of the fault vectors (V-X). -/
def base : State := State.resetWith ⟨1024, 64, 64⟩

/-- A descriptor in the order of R21. -/
def regs (cmd : BitVec 8) (w h plen len olen arg : Nat) : Descriptor where
  cmd := cmd
  width := BitVec.ofNat 32 w
  height := BitVec.ofNat 32 h
  plen := BitVec.ofNat 64 plen
  len := BitVec.ofNat 64 len
  olen := BitVec.ofNat 64 olen
  arg := BitVec.ofNat 32 arg

/-- STATUS and RESULT of an outcome. -/
def answer (o : Host.Outcome State Fault Refusal) : Option (BitVec 8 × BitVec 64) :=
  (after? o).map fun t => (t.status, t.result)

/-- What a vector for ENCODE gives: STATUS, PIX, the draws taken. -/
def encoded (o : Host.Outcome State Fault Refusal) : Option (BitVec 8 × Memory × Nat) :=
  (after? o).map fun t => (t.status, t.pix, t.rnd.pos)

/-- What a vector for DECODE gives: STATUS and OUT. -/
def decoded (o : Host.Outcome State Fault Refusal) : Option (BitVec 8 × Memory) :=
  (after? o).map fun t => (t.status, t.out)

/-- A state for an ENCODE vector: the image, the payload and the draws. -/
def image (w plen : Nat) (pix pay : List Nat) (draws : List Bool) : State :=
  { base with desc := regs 0 w 1 plen 0 0 0, pix := bytesAt 0 pix, pay := bytesAt 0 pay, rnd := ⟨draws, 0⟩ }

/-- The host is about to start the command word `c` on the descriptor `d`. -/
def starting (c : BitVec 8) (d : Descriptor) : State :=
  { base with desc := { d with cmd := c }, script := [.wr (.ctrl 0x01)] }

/-- STATUS after the step of a state. -/
def statusAfter (s : State) : Option (BitVec 8) := (after? (step s)).map fun t => t.status

/-! ### Command words, bit by bit: `00 m ff ooo` (R80 to R83) -/

theorem test_words_unit :
    decode 0b00000100#8 = .ok .getbit ∧ decode 0b00000101#8 = .ok .setbit ∧ decode 0b00000110#8 = .ok .fixup := by
  decide

theorem test_words_ga_alpha :
    decode 0b00000001#8 = .ok .estimateGaAlpha ∧ decode 0b00000010#8 = .ok .encodeGaAlpha ∧
    decode 0b00000011#8 = .ok .decodeGaAlpha := by decide

theorem test_words_ga_all :
    decode 0b00100001#8 = .ok .estimateGaAll ∧ decode 0b00100010#8 = .ok .encodeGaAll ∧
    decode 0b00100011#8 = .ok .decodeGaAll := by decide

theorem test_words_rgb_all :
    decode 0b00101001#8 = .ok .estimateRgbAll ∧ decode 0b00101010#8 = .ok .encodeRgbAll ∧
    decode 0b00101011#8 = .ok .decodeRgbAll := by decide

theorem test_words_rgba_alpha :
    decode 0b00010001#8 = .ok .estimateRgbaAlpha ∧ decode 0b00010010#8 = .ok .encodeRgbaAlpha ∧
    decode 0b00010011#8 = .ok .decodeRgbaAlpha := by decide

theorem test_words_rgba_all :
    decode 0b00110001#8 = .ok .estimateRgbaAll ∧ decode 0b00110010#8 = .ok .encodeRgbaAll ∧
    decode 0b00110011#8 = .ok .decodeRgbaAll := by decide

/-- The illegal words of V-X1 to V-X9, each by the condition it breaks. -/
theorem test_words_illegal :
    decode 0x00 = .illegal .reservedOp ∧ decode 0x07 = .illegal .reservedOp ∧
    decode 0x09 = .illegal .rgbAlpha ∧ decode 0x0A = .illegal .rgbAlpha ∧ decode 0x0B = .illegal .rgbAlpha ∧
    decode 0x19 = .illegal .reservedFormat ∧ decode 0x3B = .illegal .reservedFormat ∧
    decode 0x0C = .illegal .unitFields ∧ decode 0x26 = .illegal .unitFields ∧
    decode 0x42 = .illegal .reservedBits ∧ decode 0x82 = .illegal .reservedBits ∧
    decode 0xC2 = .illegal .reservedBits ∧ decode 0xFF = .illegal .reservedBits := by decide

theorem test_table_word :
    decodeTableWord 8 0x2A = some .encodeRgbAll ∧ decodeTableWord 8 0x0A = none ∧ encode .encodeRgbAll = 0x2A := by
  decide

/-! ### Well-formedness: one ill-formed term for each check, which the check refuses -/

theorem test_wf_reserved_bits : (⟨1, 0, 0, 2⟩ : Fields).rsvZero = false ∧ (⟨1, 0, 0, 2⟩ : Fields).wf = false := by
  decide

theorem test_wf_reserved_op : (⟨0, 0, 0, 7⟩ : Fields).opAssigned = false ∧ (⟨0, 0, 0, 7⟩ : Fields).wf = false := by
  decide

theorem test_wf_unit_fields : (⟨0, 1, 0, 6⟩ : Fields).unitPlain = false ∧ (⟨0, 1, 0, 6⟩ : Fields).wf = false := by
  decide

theorem test_wf_reserved_format : (⟨0, 0, 3, 1⟩ : Fields).fmtAssigned = false ∧ (⟨0, 0, 3, 1⟩ : Fields).wf = false := by
  decide

theorem test_wf_rgb_alpha : (⟨0, 0, 1, 2⟩ : Fields).rgbAllOnly = false ∧ (⟨0, 0, 1, 2⟩ : Fields).wf = false := by
  decide

/-- The word 0x2A is well formed. -/
theorem test_wf_legal : (⟨0, 1, 1, 2⟩ : Fields).wf = true ∧ fieldsOf 0x2A = ⟨0, 1, 1, 2⟩ := by decide

/-! ### The assembler (R90 to R92) -/

theorem test_assembler :
    assemble "ENCODE.GA".toList = some .encodeGaAlpha ∧ assemble "estimate.rgb".toList = some .estimateRgbAll ∧
    assemble "Decode.RGBA.each".toList = some .decodeRgbaAll ∧ assemble "FIXUP".toList = some .fixup ∧
    assemble "GETBIT".toList = some .getbit ∧ assemble "SETBIT".toList = some .setbit ∧
    assemble "ENCODE.RGB.ALPHA".toList = none ∧ assemble "FIXUP.GA".toList = none := by decide

/-! ### The unit commands -/

/-- V-G1 to V-G10. -/
theorem test_getbit :
    ([0x00000001, 0x00000101, 0x00000380, 0x00000780, 0x000005A5, 0x000004A5, 0x00010700, 0xFFFE07FF, 0x00000880,
      0x0000FFFF].map fun a => answer (exec .getbit { base with desc := regs 4 0 0 0 0 0 a })) =
    [(0x06, 1), (0x06, 0), (0x06, 0), (0x06, 1), (0x06, 1), (0x06, 0), (0x06, 0), (0x06, 1), (0x33, 0),
      (0x33, 0)].map some := by decide

/-- V-B1 to V-B9. -/
theorem test_setbit :
    ([0x00010300, 0x000000FF, 0x00010700, 0x000007FF, 0x000102A5, 0x000001A5, 0x000101A5, 0x000005A5,
      0x00010808].map fun a => answer (exec .setbit { base with desc := regs 5 0 0 0 0 0 a })) =
    [(0x06, 0x08), (0x06, 0xFE), (0x06, 0x80), (0x06, 0x7F), (0x06, 0xA5), (0x06, 0xA5), (0x06, 0xA7), (0x06, 0x85),
      (0x33, 0)].map some := by decide

/-- V-F1 to V-F17 where the draw is fixed or none is taken: ARG, the draw, RESULT and the draws taken. -/
theorem test_fixup :
    [(0x00000000, true, 0, 0), (0x00010000, true, 1, 0), (0x000000FF, true, 254, 0), (0x000100FF, true, 255, 0),
     (0x0000007F, true, 128, 1), (0x0000007F, false, 126, 1), (0x0001007F, true, 127, 0),
     (0x00000001, false, 0, 1), (0x00000001, true, 2, 1), (0x000100FE, true, 255, 1), (0x000100FE, false, 253, 1),
     (0x00010080, false, 127, 1), (0x00010080, true, 129, 1), (0x00000064, true, 100, 0), (0x00010002, false, 1, 1),
     (0x000000FD, true, 254, 1), (0x0000087F, true, 128, 1)].all (fun x =>
      (after? (exec .fixup { base with desc := regs 6 0 0 0 0 0 x.1, rnd := ⟨[x.2.1], 0⟩ })).map
        (fun t => (t.status, t.result.toNat, t.rnd.pos)) == some (0x06, x.2.2.1, x.2.2.2)) = true := by decide

/-! ### ESTIMATE: the capacity table of 2.3, at `P` = 7, 23, 240 and `(2^32 - 1)^2` -/

/-- RESULT of a command at the four sizes. -/
def estimates (i : Instr) : List (Option (BitVec 8 × BitVec 64)) :=
  [(7, 1), (23, 1), (8, 30), (4294967295, 4294967295)].map fun x =>
    answer (exec i { base with desc := regs 1 x.1 x.2 0 0 0 0 })

theorem test_estimate_ga_alpha :
    estimates .estimateGaAlpha = [(6, 0), (6, 2), (6, 30), (6, 2305843008139952128)].map some := by decide

theorem test_estimate_ga_all :
    estimates .estimateGaAll = [(6, 1), (6, 5), (6, 60), (6, 4611686016279904256)].map some := by decide

theorem test_estimate_rgb_all :
    estimates .estimateRgbAll = [(6, 0), (6, 6), (6, 90), (6, 6917529024419856384)].map some := by decide

theorem test_estimate_rgba_alpha :
    estimates .estimateRgbaAlpha = [(6, 0), (6, 2), (6, 30), (6, 2305843008139952128)].map some := by decide

theorem test_estimate_rgba_all :
    estimates .estimateRgbaAll = [(6, 3), (6, 11), (6, 120), (6, 9223372032559808512)].map some := by decide

/-! ### ENCODE -/

/-- V-E1. -/
theorem test_encode_ga_alpha :
    encoded (exec .encodeGaAlpha (image 8 1 [10, 255, 11, 0, 12, 100, 13, 101, 14, 254, 15, 1, 16, 128, 17, 127]
      [0x5A] [true, false, true, false])) =
    some (0x02, bytesAt 0 [10, 254, 11, 1, 12, 100, 13, 101, 14, 255, 15, 0, 16, 129, 17, 126], 4) := by decide

/-- V-E7: seven pixels hold nothing, although three bytes are there. -/
theorem test_encode_nothing_fits :
    encoded (exec .encodeGaAlpha (image 7 3 [10, 255] [0, 0, 0] [true])) = some (0x02, bytesAt 0 [10, 255], 0) := by
  decide

/-- V-E2, second payload. -/
theorem test_encode_ga_all :
    encoded (exec .encodeGaAll (image 4 1 [0, 255, 100, 101, 254, 1, 128, 127] [0xA5] [true, false])) =
    some (0x02, bytesAt 0 [1, 254, 101, 100, 254, 1, 128, 127], 2) := by decide

/-- V-E3, first payload, with the extra byte of V-E6. -/
theorem test_encode_rgba_all :
    encoded (exec .encodeRgbaAll (image 2 2 [0, 255, 100, 101, 254, 1, 128, 127] [0x5A, 0xFF]
      [true, false, true, false])) =
    some (0x02, bytesAt 0 [0, 255, 100, 101, 255, 0, 129, 126], 4) := by decide

/-- V-E4: an opaque image, no draw. -/
theorem test_encode_rgba_alpha :
    encoded (exec .encodeRgbaAlpha (image 16 2 (List.replicate 16 [9, 8, 7, 255]).flatten [0x0F, 0xF0] [])) =
    some (0x02, bytesAt 0 ([255, 255, 255, 255, 254, 254, 254, 254, 254, 254, 254, 254, 255, 255, 255, 255].map
      fun a => [9, 8, 7, a]).flatten, 0) := by decide

/-- V-E5: one group of 8 pixels and 3 bytes. -/
theorem test_encode_rgb_all :
    encoded (exec .encodeRgbAll (image 8 3 ((List.range 24).map (50 + ·)) [0x00, 0xFF, 0x5A]
      [true, false, true, false, true, false, true, false, true, false, true, false])) =
    some (0x02, bytesAt 0 [50, 52, 52, 52, 54, 56, 56, 56, 59, 59, 59, 61, 63, 63, 63, 65, 66, 67, 68, 69, 71, 70, 73,
      72], 12) := by decide

/-! ### DECODE over the digits of pi (2.6) -/

/-- The image of 2.6. -/
def digits : List Nat :=
  [3, 1, 4, 1, 5, 9, 2, 6, 5, 3, 5, 8, 9, 7, 9, 3, 2, 3, 8, 4, 6, 2, 6, 4] ++
  [3, 3, 8, 3, 2, 7, 9, 5, 0, 2, 8, 8, 4, 1, 9, 7, 1, 6, 9, 3, 9, 9, 3, 7]

/-- The state of 2.6: LEN bytes asked for, room for `olen`, OUT filled with 0xEE. -/
def digitImage (w len olen : Nat) : State :=
  { base with
    desc := regs 0 w 1 0 len olen 0, pix := bytesAt 0 digits, out := bytesAt 0 (List.replicate olen 0xEE) }

/-- V-D1. -/
theorem test_decode_ga_alpha :
    decoded (exec .decodeGaAlpha (digitImage 24 4 4)) = some (0x02, bytesAt 0 [0xD7, 0xF1, 0xEC, 0xEE]) := by decide

/-- V-D2. -/
theorem test_decode_ga_all :
    decoded (exec .decodeGaAll (digitImage 24 7 7)) =
      some (0x02, bytesAt 0 [0x3B, 0xF7, 0x02, 0xEB, 0xE0, 0xFD, 0xEE]) := by decide

/-- V-D6. -/
theorem test_decode_length_below_capacity :
    decoded (exec .decodeGaAll (digitImage 24 2 7)) =
      some (0x02, bytesAt 0 [0x3B, 0xF7, 0xEE, 0xEE, 0xEE, 0xEE, 0xEE]) := by decide

/-- V-D3. -/
theorem test_decode_rgb_all :
    decoded (exec .decodeRgbAll (digitImage 16 7 7)) =
      some (0x02, bytesAt 0 [0x3B, 0xF7, 0x02, 0xEB, 0xE0, 0xFD, 0xEE]) := by decide

/-- V-D3 with 15 pixels: one whole group. -/
theorem test_decode_rgb_all_one_group :
    decoded (exec .decodeRgbAll (digitImage 15 7 7)) =
      some (0x02, bytesAt 0 [0x3B, 0xF7, 0x02, 0xEE, 0xEE, 0xEE, 0xEE]) := by decide

/-- V-D4. -/
theorem test_decode_rgba_alpha :
    decoded (exec .decodeRgbaAlpha (digitImage 12 2 2)) = some (0x02, bytesAt 0 [0xC9, 0xEE]) := by decide

/-- V-D5. -/
theorem test_decode_rgba_all :
    decoded (exec .decodeRgbaAll (digitImage 12 7 7)) =
      some (0x02, bytesAt 0 [0x3B, 0xF7, 0x02, 0xEB, 0xE0, 0xFD, 0xEE]) := by decide

/-! ### Faults and checks (2.7), each one START -/

/-- V-X1 to V-X9 by the step that starts them, and V-X19: the command word is checked before everything. -/
theorem test_start_illegal :
    [0x00, 0x07, 0x0A, 0x09, 0x0B, 0x19, 0x3B, 0x0C, 0x26, 0x42, 0x82, 0xC2, 0xFF].all (fun c =>
      statusAfter (starting c (regs 0 32 32 0 70 65 1)) == some 0x13) = true := by decide

/-- V-X10 to V-X18, V-X20 to V-X25: the command word, the registers, STATUS. -/
theorem test_start_checks :
    [((0x03 : BitVec 8), regs 0 8 1 0 2 1 0, (0x43 : BitVec 8)), (0x03, regs 0 8 1 0 1 1 0, 0x02),
     (0x03, regs 0 0 0 0 1 0 0, 0x43), (0x02, regs 0 32 32 1 0 0 0, 0x23), (0x02, regs 0 8 1 65 0 0 0, 0x23),
     (0x33, regs 0 2 1 0 1 65 0, 0x23), (0x33, regs 0 2 1 0 70 65 0, 0x23), (0x01, regs 0 32 32 0 0 0 0, 0x06),
     (0x32, regs 0 16 16 0 0 0 0, 0x02), (0x32, regs 0 16 17 0 0 0 0, 0x23),
     (0x02, regs 0 4294967295 4294967295 0 0 0 0, 0x23), (0x04, regs 0 0 0 0 0 0 0x800, 0x33),
     (0x06, regs 0 0 0 0 0 0 0x800, 0x06)].all (fun x => statusAfter (starting x.1 x.2.1) == some x.2.2) = true := by
  decide

/-! ### Command control (2.8) -/

/-- The very next step runs the word of `withFetchWord`: right after reset (an empty image encodes to DONE), and in
FAULT. -/
theorem test_with_fetch_word :
    statusAfter (State.reset.withFetchWord 8 0x2A) = some 0x02 ∧
    answer (step (State.withFetchWord { base with desc := regs 0x03 8 30 0 0 0 0, status := 0x43 } 8 0x01)) =
      some (0x06, 30) := by decide

/-- V-K1: reset. -/
theorem test_reset_reads_zero :
    (after? (step { State.reset with script := [.rd .status] })).map (·.seen) = some [.reg (.status 0x00)] := by decide

/-- A block in DONE with STATUS 0x06 and RESULT 30 (V-K4, V-K9), about to see the strobe `v`. -/
def doneWith (cmd v : BitVec 8) (arg : Nat) : State :=
  { base with desc := regs cmd 8 30 0 0 0 arg, status := 0x06, result := 30, script := [.wr (.ctrl v)] }

/-- V-K4, V-K5, V-K9. -/
theorem test_strobes_in_done :
    answer (step (doneWith 0x01 0x02 0)) = some (0x00, 0) ∧ answer (step (doneWith 0x04 0x01 1)) = some (0x06, 1) ∧
    answer (step (doneWith 0x02 0x01 0)) = some (0x02, 0) := by decide

/-- A block in FAULT with STATUS 0x43 (V-K6 to V-K8), whose host does `a` next. -/
def faultWith (a : HostAct) : State :=
  { base with desc := regs 0x01 8 30 0 0 0 0, status := 0x43, script := [a] }

/-- V-K6, V-K7, V-K8. -/
theorem test_strobes_in_fault :
    answer (step (faultWith (.wr (.ctrl 0x01)))) = some (0x43, 0) ∧
    answer (step (faultWith (.wr (.len 1)))) = some (0x43, 0) ∧
    answer (step (faultWith (.wr (.ctrl 0x03)))) = some (0x06, 30) := by decide

/-- V-K2, V-K3, V-K11: none of these host writes changes anything. -/
theorem test_writes_without_effect :
    [RegVal.ctrl 0x02, .ctrl 0x00, .ctrl 0xFC, .status 0xFF, .result 7].all (fun v =>
      after? (step { base with script := [.wr v] }) == some base) = true := by decide

/-- V-K10: CTRL reads as 0. -/
theorem test_ctrl_reads_zero :
    (after? (step { base with script := [.rd .ctrl] })).map (·.seen) = some [.reg (.ctrl 0)] := by decide

/-- R27: the reserved bits of ARG. -/
theorem test_arg_reserved_bits :
    (after? (step { base with script := [.wr (.arg 0xFFFE07FF)] })).map (·.desc.arg) = some 0x07FF := by decide

/-- Program 3: `FILL OUT, 0, 4, 0xEE`, and `LOAD` over a part of it. -/
theorem test_fill_and_load :
    (after? (step { base with script := [.fill .out 0 4 0xEE] })).map (·.out) =
      some (bytesAt 0 [0xEE, 0xEE, 0xEE, 0xEE]) ∧
    (after? (step { base with out := bytesAt 0 [0xEE, 0xEE, 0xEE, 0xEE], script := [.load .out 1 [0xC3, 0x3C]] })).map
      (·.out) = some (bytesAt 0 [0xEE, 0xC3, 0x3C, 0xEE]) := by decide

/-! ### Witnesses: concrete inputs that meet the hypotheses of a statement, at the ends of their ranges

A clause guarded by `b < n_enc`, `i < 8` and the like is met at its last value. -/

/-- V-X15: 512 pixels of GA fill PIX exactly, 64 bytes fill PAY exactly, and the capacity is 64. -/
def full : State := { base with desc := regs 0x02 32 16 64 64 64 0 }

theorem witness_BitFunctionsByIndex :
    getBit 0x80 7 = some true ∧ getBit 0x80 8 = none ∧ setBit 0x7F 7 true = some 0xFF ∧ setBit 0x7F 8 true = none := by
  decide

theorem witness_BitUtilityLaws : 7 < 8 ∧ 0 < 8 ∧ (0 : Nat) ≠ 7 ∧ getBit 0x7F 7 = some false ∧ setBit 0x7F 7 true = some 0xFF := by
  decide

/-- The state of an index of 7, 8 and 255. -/
theorem witness_GetbitReturnsTheIndexedBit :
    argNumbers { base with desc := regs 4 0 0 0 0 0 0x780 } = (0x80, 7, 0) ∧
    argNumbers { base with desc := regs 4 0 0 0 0 0 0x880 } = (0x80, 8, 0) ∧
    argNumbers { base with desc := regs 4 0 0 0 0 0 0xFFFF } = (0xFF, 255, 0) := by decide

theorem witness_SetbitForcesTheIndexedBit :
    argNumbers { base with desc := regs 5 0 0 0 0 0 0x10700 } = (0, 7, 1) ∧
    argNumbers { base with desc := regs 5 0 0 0 0 0 0x10808 } = (8, 8, 1) := by decide

/-- Each of the six cases at the values next to the boundaries. -/
theorem witness_FixupCaseTable :
    fixup 254 false ⟨[], 0⟩ = (254, ⟨[], 0⟩) ∧ fixup 1 true ⟨[], 0⟩ = (1, ⟨[], 0⟩) ∧
    fixup 0 true ⟨[], 0⟩ = (1, ⟨[], 0⟩) ∧ fixup 255 false ⟨[], 0⟩ = (254, ⟨[], 0⟩) ∧
    (fixup 2 true ⟨[false], 0⟩).1 = 1 ∧ (fixup 254 true ⟨[true], 0⟩).1 = 255 ∧
    (fixup 1 false ⟨[false], 0⟩).1 = 0 ∧ (fixup 253 false ⟨[true], 0⟩).1 = 254 := by decide

theorem witness_FixupProperties : (⟨[true], 0⟩ : Source).answer 0 = true := by decide

theorem witness_FixupCommandAdjustsParity :
    (127 : Byte).toNat = (argNumbers { base with desc := regs 6 0 0 0 0 0 0x1007F }).1 ∧
    true.toNat = (argNumbers { base with desc := regs 6 0 0 0 0 0 0x1007F }).2.2 := by decide

/-- V of 2.4: the last bit of bytes 1 and 3. -/
theorem witness_SlotAddressesInClosedForm :
    7 < 8 ∧ addr .gaAlpha 3 7 = 63 ∧ addr .gaAll 3 7 = 31 ∧ addr .rgbAll 3 7 = 31 ∧ addr .rgbaAlpha 3 7 = 127 ∧
    addr .rgbaAll 3 7 = 31 := by decide

theorem witness_RgbGroupVisitsTheEnumeratedChannels : 23 < 24 ∧ addr .rgbAll 2 7 = 23 := by decide

theorem witness_SlotAddressesRiseInsideTheBuffer :
    addr .rgbAll 0 7 < addr .rgbAll 1 0 ∧ addr .rgbAll 1 6 < addr .rgbAll 1 7 ∧ 2 < capacity .rgbAll 8 ∧
    addr .rgbAll 2 7 < 8 * 3 := by decide

theorem witness_EstimateReturnsTheCapacity :
    18446744065119617025 = (regs 1 4294967295 4294967295 0 0 0 0).width.toNat *
      (regs 1 4294967295 4294967295 0 0 0 0).height.toNat := by decide

/-- The descriptor fits at equality, and the last slot and an address that is no slot are there. -/
theorem witness_EncodeAdjustsEverySlotInOrder :
    EncodeFits .gaAlpha full ∧ nEnc .gaAlpha full.desc = 64 ∧ addr .gaAlpha 63 7 = 1023 := by decide

/-- The ENCODE premises for all five pairs, with work to do. -/
theorem witness_EncodeFits_every_pair :
    [Pair.gaAlpha, .gaAll, .rgbAll, .rgbaAlpha, .rgbaAll].all (fun p =>
      decide (EncodeFits p (image 8 1 [] [] [])) && decide (nEnc p (image 8 1 [] [] []).desc = 1)) = true := by decide

/-- The state of V-E1. -/
def ve1 : State :=
  image 8 1 [10, 255, 11, 0, 12, 100, 13, 101, 14, 254, 15, 1, 16, 128, 17, 127] [0x5A] [true, false, true, false]

/-- The state after it. -/
def ve1After : State :=
  { ve1 with
    status := 0x02, rnd := ⟨[], 4⟩
    pix := bytesAt 0 [10, 254, 11, 1, 12, 100, 13, 101, 14, 255, 15, 0, 16, 129, 17, 126] }

theorem ve1_step : exec (encodeOf .gaAlpha) ve1 = .next ve1After := next_of_after? (by decide)

theorem witness_EncodeMakesParitiesThePayload : EncodeFits .gaAlpha ve1 ∧ 0 < nEnc .gaAlpha ve1.desc := by decide

/-- Slot 2 of V-E1 has the right parity and address 0, a gray byte, is no slot. -/
theorem witness_EncodePerturbsByAtMostOne :
    EncodeFits .gaAlpha ve1 ∧ (ve1.read .pix (addr .gaAlpha 0 2)).toNat % 2 = (ve1.read .pay 0).toNat / 2 ^ 2 % 2 ∧
    [0, 1, 2, 3, 4, 5, 6, 7].all (fun i => addr .gaAlpha 0 i != 0) = true := by decide

/-- V-E1 takes four draws for eight slots. -/
theorem witness_EncodeDrawsOncePerInteriorMismatch :
    EncodeFits .gaAlpha ve1 ∧ drawsBefore .gaAlpha ve1 8 = 4 := by decide

/-- A payload one byte too long, and one exactly as long as the capacity. -/
theorem witness_EncodeDropsWhatDoesNotFit :
    EncodeFits .gaAlpha (image 8 2 [] [] []) ∧ capacity .gaAlpha (image 8 2 [] [] []).desc.pixels = 1 ∧
    (image 8 2 [] [] []).desc.plen.toNat = 2 ∧
    EncodeFits .gaAlpha full ∧ capacity .gaAlpha full.desc.pixels = full.desc.plen.toNat := by decide

/-- Another byte beyond the payload. -/
theorem witness_EncodeReadsNoPayloadBeyondItsCount :
    EncodeFits .gaAlpha ve1 ∧ nEnc .gaAlpha ve1.desc = 1 ∧ bytesAt 0 [0x5A, 0x77] ≠ ve1.pay ∧
    ({ ve1 with pay := bytesAt 0 [0x5A, 0x77] } : State).read .pay 0 = ve1.read .pay 0 := by decide

theorem witness_EncodeRepeatedChangesNothing :
    EncodeFits .gaAlpha ve1 ∧ exec (encodeOf .gaAlpha) ve1 = .next ve1After := ⟨by decide, ve1_step⟩

/-- DECODE at equality of every capacity and of LEN and OLEN. -/
theorem witness_DecodeWritesTheParities :
    DecodeFits .gaAlpha full ∧ full.desc.len.toNat ≤ full.desc.olen.toNat ∧ nDec .gaAlpha full.desc = 64 := by decide

/-- The DECODE premises for all five pairs, with work to do. -/
theorem witness_DecodeFits_every_pair :
    [Pair.gaAlpha, .gaAll, .rgbAll, .rgbaAlpha, .rgbaAll].all (fun p =>
      decide (DecodeFits p (digitImage 8 1 1)) && decide (nDec p (digitImage 8 1 1).desc = 1)) = true := by decide

/-- The state after V-E1 when the host has set LEN and OLEN to 1. -/
def ve1Read : State := { ve1After with desc := regs 0x03 8 1 1 1 1 0 }

/-- The round trip on V-E1. -/
theorem witness_DecodeRecoversTheEncodedPayload :
    (EncodeFits .gaAlpha ve1 ∧ ve1.desc.plen.toNat ≤ capacity .gaAlpha ve1.desc.pixels ∧
     DecodeFits .gaAlpha ve1Read ∧ ve1Read.desc.len = ve1.desc.plen ∧
     ve1Read.desc.len.toNat ≤ ve1Read.desc.olen.toNat ∧
     ve1Read.desc.len.toNat ≤ capacity .gaAlpha ve1Read.desc.pixels ∧
     decoded (exec .decodeGaAlpha ve1Read) = some (0x02, bytesAt 0 [0x5A])) ∧
    exec (encodeOf .gaAlpha) ve1 = .next ve1After ∧
    (∀ b i, b < ve1.desc.plen.toNat → i < 8 →
      ve1Read.read .pix (addr .gaAlpha b i) = ve1After.read .pix (addr .gaAlpha b i)) :=
  ⟨by decide, ve1_step, fun _ _ _ _ => rfl⟩

/-- One byte too many: of the image (RGBA, 257 pixels of a 1024 byte memory), of the payload, of the output buffer. -/
theorem witness_DescriptorRangeIsCheckedFirst :
    base.caps.pix < 257 * 1 * nch .rgbaAll ∧ base.caps.pix = 256 * 1 * nch .rgbaAll ∧
    base.caps.pay < (regs 0 8 1 65 0 0 0).plen.toNat ∧ base.caps.out < (regs 0 2 1 0 70 65 0).olen.toNat := by decide

theorem witness_DecodeLengthAboveBufferFaults :
    DecodeFits .gaAlpha (digitImage 8 2 1) ∧
    (digitImage 8 2 1).desc.olen.toNat < (digitImage 8 2 1).desc.len.toNat ∧
    DecodeFits .gaAlpha (digitImage 8 2 2) ∧
    (digitImage 8 2 2).desc.len.toNat ≤ (digitImage 8 2 2).desc.olen.toNat := by decide

/-- A command of each faulting kind that faults. -/
theorem witness_FaultsArePrecise :
    [(Instr.getbit, regs 0 0 0 0 0 0 0x800), (.setbit, regs 0 0 0 0 0 0 0x800), (.encodeGaAll, regs 0 8 1 65 0 0 0),
     (.decodeRgbAll, regs 0 8 1 0 2 1 0), (.decodeRgbAll, regs 0 8 1 0 2 65 0)].all (fun x =>
      ((after? (exec x.1 { base with desc := x.2 })).map (·.phase)) == some .fault) = true := by decide

theorem witness_CommandsWriteOnlyTheirOwnMemory :
    exec .encodeGaAlpha ve1 = .next ve1After ∧ (∀ p, Instr.encodeGaAlpha.kind ≠ .decode p) ∧
    (∀ p, Instr.getbit.kind ≠ .encode p) ∧ Instr.getbit.kind ≠ .fixup := by
  refine ⟨ve1_step, ?_, ?_, by decide⟩ <;> intro p <;> cases p <;> decide

/-- Descriptors that differ in all that a command does not read. -/
theorem witness_CommandsReadOnlyTheirOperands :
    SameOperands (.estimate .gaAll) (regs 1 8 30 1 2 3 4) (regs 2 240 1 5 6 7 8) ∧
    SameOperands (.encode .gaAll) (regs 1 8 30 9 2 3 4) (regs 2 240 1 9 6 7 8) ∧
    SameOperands (.decode .gaAll) (regs 1 8 30 1 9 9 4) (regs 2 16 15 5 9 9 8) ∧
    SameOperands .getbit (regs 1 1 1 1 2 3 0x00507) (regs 2 2 2 5 6 7 0x10507) ∧
    SameOperands .setbit (regs 1 1 1 1 2 3 0x10507) (regs 2 2 2 5 6 7 0x10507) ∧
    SameOperands .fixup (regs 1 1 1 1 2 3 0x10507) (regs 2 2 2 5 6 7 0x10807) := by decide

/-- IDLE and DONE with START alone, FAULT with both bits. -/
theorem witness_StartRunsTheDecodedCommand :
    CtrlNext (starting 0x04 (regs 0 0 0 0 0 0 1)) 0x01 [] ∧
    decode (starting 0x04 (regs 0 0 0 0 0 0 1)).desc.cmd = .ok .getbit ∧
    (starting 0x04 (regs 0 0 0 0 0 0 1)).phase = .idle ∧ (doneWith 0x04 0x01 1).phase = .done ∧
    (faultWith (.wr (.ctrl 0x03))).phase ≠ .busy ∧
    (0x01 : BitVec 8).getLsbD 0 = true ∧ (0x01 : BitVec 8).getLsbD 1 = false ∧ (0x03 : BitVec 8).getLsbD 1 = true ∧
    decodeTableWord 8 0x31 = some .estimateRgbaAll := by decide

theorem witness_IllegalCommandWordFaults :
    CtrlNext (starting 0x00 (regs 0 0 0 0 0 0 0)) 0x01 [] ∧ (starting 0x00 (regs 0 0 0 0 0 0 0)).phase = .idle ∧
    (∀ r ∈ opcodeMap, r.1 ≠ (starting 0x00 (regs 0 0 0 0 0 0 0)).desc.cmd) ∧
    (doneWith 0xFF 0x01 0).phase = .done ∧ (∀ r ∈ opcodeMap, r.1 ≠ (doneWith 0xFF 0x01 0).desc.cmd) := by decide

theorem witness_StartInFaultIsIgnored :
    CtrlNext (faultWith (.wr (.ctrl 0x01))) 0x01 [] ∧ (faultWith (.wr (.ctrl 0x01))).phase = .fault := by decide

theorem witness_ClrReturnsToIdle :
    CtrlNext (faultWith (.wr (.ctrl 0x02))) 0x02 [] ∧ (faultWith (.wr (.ctrl 0x02))).phase = .fault ∧
    (doneWith 0x01 0x02 0).phase = .done ∧ ({ base with script := [.wr (.ctrl 0x02)] } : State).phase = .idle ∧
    (0x02 : BitVec 8).getLsbD 0 = false ∧ (0x02 : BitVec 8).getLsbD 1 = true := by decide

theorem witness_CombinedStrobeClearsThenStarts :
    (faultWith (.wr (.ctrl 0x03))).phase ≠ .busy ∧ CtrlNext (faultWith (.wr (.ctrl 0x03))) 0x03 [] ∧
    (0x03 : BitVec 8).getLsbD 0 = true ∧ (0x03 : BitVec 8).getLsbD 1 = true ∧ (0xFC : BitVec 8).getLsbD 0 = false ∧
    (0xFC : BitVec 8).getLsbD 1 = false ∧ (0xFD : BitVec 8).toNat % 4 = (0x01 : BitVec 8).toNat % 4 := by decide

/-- The CLR strobe does leave FAULT, and so does the reset input. -/
theorem witness_OnlyClearOrResetLeavesFault :
    (faultWith (.wr (.ctrl 0x02))).phase = .fault ∧ statusAfter (faultWith (.wr (.ctrl 0x02))) = some 0x00 ∧
    (faultWith .reset).phase = .fault ∧ statusAfter (faultWith .reset) = some 0x00 := by decide

/-- A block in the middle of V-E1: launched, with three slots done, whose host does `h` next. -/
def busyWith (h : List HostAct) : Option State :=
  (after? (ticks 3 (launch { ve1 with desc := { ve1.desc with cmd := 0x02 } }))).map fun u => { u with script := h }

theorem witness_BusyLeavesTheHostOnlyStatus :
    ((busyWith [.rd .status]).map fun s => (s.phase, s.script)) = some (.busy, [.rd .status]) ∧
    ((busyWith [.wr (.ctrl 0x01)]).map fun s => (s.phase, s.script)) = some (.busy, [.wr (.ctrl 0x01)]) ∧
    ((busyWith [.wr (.plen 3)]).map fun s => (s.phase, (s.run.bind fun r => r.cursor.map fun c => (c.b, c.i)))) =
      some (.busy, some (0, 3)) := by decide

/-- R230, R232: a START while BUSY is dropped, and the command goes on where it was. -/
theorem test_start_while_busy :
    ((busyWith [.wr (.ctrl 0x01)]).bind fun s => after? (step s)) = busyWith [] := by decide

theorem witness_BlockWaitsForTheHost : base.phase ≠ .busy ∧ base.script = [] := by decide

theorem witness_HostRegisterWrites :
    ({ base with script := [.wr (.arg 0xFFFFFFFF)] } : State).phase ≠ .busy ∧
    ((after? (step { base with script := [.wr (.arg 0xFFFFFFFF)] })).map (·.desc.arg)) = some 0x1FFFF := by decide

theorem witness_HostRegisterReads :
    ({ doneWith 1 2 3 with script := [.rd .result] } : State).phase ≠ .busy ∧
    ((after? (step { doneWith 1 2 3 with script := [.rd .result] })).map (·.seen)) =
      some [.reg (.result 30)] := by decide

/-- Up to the last byte that exists. -/
theorem witness_HostMemoryAccess :
    base.phase ≠ .busy ∧ 62 + [(1 : Byte), 2].length ≤ base.caps.of .pay ∧ 60 + 4 ≤ base.caps.of .out ∧
    1023 < base.caps.of .pix := by decide

/-- From the first byte that does not exist. -/
theorem witness_HostAccessBeyondCapacityStops :
    base.caps.of .pay < 63 + [(1 : Byte), 2].length ∧ [(1 : Byte), 2] ≠ [] ∧ base.caps.of .out < 60 + 5 ∧
    base.caps.of .pix ≤ 1024 := by decide

theorem witness_RandomnessAnswersAsTheHostArranged :
    base.phase ≠ .busy ∧ [true, false][1]? = some false := by decide

theorem witness_ResetInputRestoresTheRegisters :
    (faultWith .reset).phase ≠ .busy ∧ (faultWith .reset).script = [.reset] := by decide

theorem witness_CapacitiesNeverChange : step base = .next base := rfl

/-- The premises in a state where the host has the turn and in one where the core has it. -/
theorem witness_StepKeepsTheInvariant :
    (starting 0x32 (regs 0 2 1 0 0 0 0)).inv = true ∧ statusAfter (starting 0x32 (regs 0 2 1 0 0 0 0)) = some 0x02 ∧
    ((busyWith []).map fun s => (s.inv, s.phase, statusAfter s)) = some (true, .busy, some 0x01) := by decide

/-- A command that passes its checks, with work to do, and one that does not. -/
theorem witness_SlotBySlotRunIsTheCommand :
    decode (0x02 : BitVec 8) = .ok .encodeGaAlpha ∧ startCheck (.encode .gaAlpha) ve1.desc ve1.caps = none ∧
    workBytes (.encode .gaAlpha) ve1.desc = 1 ∧
    startCheck (.encode .gaAlpha) (regs 2 8 1 65 0 0 0) base.caps = some .descriptorRange := by decide

/-- V-E1 backwards: slots 7, 6, 5 and 4 are the interior mismatches, with the draws 0, 1, 0 and 1 in the canonical order. -/
def backwards : List Nat := [7, 6, 5, 4, 3, 2, 1, 0]

/-- An order other than ENCODE's, with the same draw for each slot. -/
theorem witness_SlotOrderShowsOnlyInTheDraws :
    backwards.Nodup ∧ backwards.Perm (List.range (8 * nEnc .gaAlpha ve1.desc)) ∧ EncodeFits .gaAlpha ve1 ∧
    (∀ k ∈ backwards, interiorMismatch (ve1.read .pix (slotAddr .gaAlpha k)) (bit (ve1.read .pay (k / 8)) (k % 8)) = true →
      (⟨[false, true, false, true], 0⟩ : Source).answer (drawsInOrder .gaAlpha ve1 backwards k) =
        ve1.rnd.answer (drawsBefore .gaAlpha ve1 k)) ∧
    (∀ k ∈ backwards, 0 ≠ slotAddr .gaAlpha k) ∧
    DecodeFits .gaAlpha ve1Read ∧ ve1Read.desc.len.toNat ≤ ve1Read.desc.olen.toNat ∧
    backwards.Perm (List.range (8 * nDec .gaAlpha ve1Read.desc)) := by decide

/-- R68: with each slot's own draw the order does not show in PIX, with the same sequence of draws it does. -/
theorem test_slot_order :
    (encodeInOrder .gaAlpha backwards { ve1 with rnd := ⟨[false, true, false, true], 0⟩ }).pix = ve1After.pix ∧
    (encodeInOrder .gaAlpha backwards ve1).pix ≠ ve1After.pix ∧
    (decodeInOrder .gaAlpha backwards { ve1Read with out := [(0, 0xFF)] }).out = [(0, 0x5A)] := by decide

/-- V-E1 has one payload byte: the cursor stands on slot 7 at the last, and there is none after it. -/
theorem witness_CursorWalksTheSlotsInOrder :
    (let s := { ve1 with desc := { ve1.desc with cmd := 0x02 } }
     decode s.desc.cmd = .ok .encodeGaAlpha ∧ startCheck (.encode .gaAlpha) s.desc s.caps = none ∧
     workBytes (.encode .gaAlpha) s.desc = 1 ∧
     (after? (ticks 7 (launch s))).map (·.run) = some (some ⟨s.desc, some ⟨0, 7, 0⟩⟩) ∧
     (after? (ticks 8 (launch s))).map (·.run) = some (some ⟨s.desc, none⟩)) := by decide

theorem witness_HostDrawTakesTheNextBit :
    ({ base with script := [.draw], rnd := ⟨[true, false], 5⟩ } : State).phase ≠ .busy ∧
    (after? (step { base with script := [.draw], rnd := ⟨[true, false], 5⟩ })).map (fun t => (t.rnd, t.seen)) =
      some (⟨[false], 6⟩, [.draw true]) := by decide

end Sys2Proof.Tests
end

section
/-! SUPPORT. A command slot by slot (R30, R234): the state of a running command after each of its slot operations, and
that its last move leaves what the command leaves as one step (R235). -/

namespace Sys2Proof.Machine

/-- What the first `j` slot operations of a command leave in the memories and the source (R147, R149); DECODE writes
whole bytes. -/
def slotsDone : Kind → Nat → State → State
  | .encode p, j, s => encodeSlots p j s
  | .decode p, j, s => decodeBytes p (j / 8) s
  | .estimate _, _, s => s
  | .getbit, _, s => s
  | .setbit, _, s => s
  | .fixup, _, s => s

/-- The output byte that a running DECODE is putting together after `j` slot operations (log entry 11). -/
def byteInWork : Kind → Nat → State → Byte
  | .decode p, j, s => loop (decodeSlot s p (j / 8)) (j % 8) 0
  | .encode _, _, _ => 0
  | .estimate _, _, _ => 0
  | .getbit, _, _ => 0
  | .setbit, _, _ => 0
  | .fixup, _, _ => 0

/-- The cursor after `j` slot operations of a command with `n` payload bytes to work on (R30, log entry 18). -/
def cursorAt (n j : Nat) (ob : Byte) : Option Cursor :=
  if j < 8 * n then some ⟨j / 8, j % 8, ob⟩ else none

/-- The running command `k` after `j` slot operations, from the accepted START in `s`. -/
def State.atSlot (s : State) (k : Kind) (j : Nat) : State :=
  { slotsDone k j s.accept with
    run := some ⟨s.desc, cursorAt (workBytes k s.desc) j (byteInWork k j s)⟩ }

theorem cursorAt_of_lt {n j : Nat} (ob : Byte) (h : j < 8 * n) : cursorAt n j ob = some ⟨j / 8, j % 8, ob⟩ := if_pos h

theorem cursorAt_end (n : Nat) (ob : Byte) : cursorAt n (8 * n) ob = none := if_neg (Nat.lt_irrefl _)

theorem cursorAt_zero (n : Nat) : cursorAt n 0 0 = Cursor.first n := by
  unfold cursorAt Cursor.first
  by_cases h : n = 0
  · rw [if_pos h, if_neg (by omega)]
  · rw [if_neg h, if_pos (by omega)]

/-- The cursor's walk: from slot `j` to slot `j + 1`, with the byte in work dropped at the end of a byte. -/
theorem next_cursorAt {n j : Nat} (ob : Byte) (h : j < 8 * n) :
    Cursor.next n ⟨j / 8, j % 8, ob⟩ = cursorAt n (j + 1) (if j % 8 < 7 then ob else 0) := Cursor.next_slot ob h

theorem byteInWork_zero (k : Kind) (s : State) : byteInWork k 0 s = 0 := by cases k <;> rfl

/-- The byte in work takes the bit of slot `j`, or is empty again when slot `j` was a byte's last. -/
theorem byteInWork_decode_succ (p : Pair) (j : Nat) (s : State) :
    byteInWork (.decode p) (j + 1) s =
      if j % 8 < 7 then decodeSlot s p (j / 8) (j % 8) (byteInWork (.decode p) j s) else 0 := by
  simp only [byteInWork]
  by_cases h7 : j % 8 < 7
  · rw [if_pos h7, show (j + 1) / 8 = j / 8 by omega, show (j + 1) % 8 = j % 8 + 1 by omega, loop]
  · rw [if_neg h7, show (j + 1) % 8 = 0 by omega, loop]

theorem slotsDone_zero (k : Kind) (s : State) : slotsDone k 0 s = s := by cases k <;> rfl

theorem slotsDone_status (k : Kind) (j : Nat) (s : State) : (slotsDone k j s).status = s.status := by
  cases k with
  | encode p => exact (encodeSlots_frame p j s).2.1
  | decode p => exact (decodeBytes_frame p (j / 8) s).2.1
  | _ => rfl

theorem State.atSlot_phase (s : State) (k : Kind) (j : Nat) : (s.atSlot k j).phase = .busy := by
  change phaseOf (slotsDone k j s.accept).status = .busy
  rw [slotsDone_status, State.accept_status, phaseOf_busy]

/-! ### One slot operation -/

theorem tickEncode_atSlot (p : Pair) (s : State) {j : Nat} (h : j < 8 * nEnc p s.desc) :
    tickEncode p s.desc ⟨j / 8, j % 8, 0⟩ (s.atSlot (.encode p) j) = s.atSlot (.encode p) (j + 1) := by
  have hc : Cursor.next (nEnc p s.desc) ⟨j / 8, j % 8, 0⟩ = cursorAt (nEnc p s.desc) (j + 1) 0 := by
    rw [next_cursorAt 0 h, ite_self]
  rw [tickEncode, hc]
  rfl

/-- A slot of DECODE is read as it was at START: DECODE does not write PIX (R32). -/
theorem decodeSlot_atSlot (p : Pair) (s : State) (j b i : Nat) (ob : Byte) :
    decodeSlot (s.atSlot (.decode p) j) p b i ob = decodeSlot s p b i ob := by
  have h : (s.atSlot (.decode p) j).read .pix (addr p b i) = s.read .pix (addr p b i) := by
    rw [State.atSlot, State.withRun_read, slotsDone, decodeBytes_read_pix, State.accept_read]
  rw [decodeSlot, decodeSlot, h]

/-- The eighth slot of a byte completes it: the byte in work with its last bit is the byte DECODE writes (R149). -/
theorem write_lastBit (p : Pair) (s : State) {j : Nat} (h : j % 8 = 7) :
    (slotsDone (.decode p) j s.accept).write .out (j / 8)
        (decodeSlot s p (j / 8) (j % 8) (byteInWork (.decode p) j s)) =
      slotsDone (.decode p) (j + 1) s.accept := by
  have hb : decodedByte (decodeBytes p (j / 8) s.accept) p (j / 8) = decodedByte s p (j / 8) :=
    decodedByte_congr fun i _ => by rw [decodeBytes_read_pix, State.accept_read]
  have hl : decodeSlot s p (j / 8) (j % 8) (byteInWork (.decode p) j s) = decodedByte s p (j / 8) := by
    rw [byteInWork, h]; rfl
  have hs : slotsDone (.decode p) (j + 1) s.accept = decodeByte p (j / 8) (decodeBytes p (j / 8) s.accept) := by
    rw [slotsDone, show (j + 1) / 8 = j / 8 + 1 by omega]; rfl
  rw [hs, decodeByte, hb, hl]
  rfl

theorem tickDecode_atSlot (p : Pair) (s : State) {j : Nat} (h : j < 8 * nDec p s.desc) :
    tickDecode p s.desc ⟨j / 8, j % 8, byteInWork (.decode p) j s⟩ (s.atSlot (.decode p) j) =
      s.atSlot (.decode p) (j + 1) := by
  have hc := next_cursorAt (decodeSlot s p (j / 8) (j % 8) (byteInWork (.decode p) j s)) h
  rw [← byteInWork_decode_succ] at hc
  simp only [tickDecode, decodeSlot_atSlot, hc]
  by_cases h7 : j % 8 < 7
  · have hs : slotsDone (.decode p) (j + 1) s.accept = slotsDone (.decode p) j s.accept := by
      rw [slotsDone, slotsDone, show (j + 1) / 8 = j / 8 by omega]
    rw [if_pos h7, State.atSlot, State.atSlot, hs]
    rfl
  · rw [if_neg h7, State.atSlot, State.atSlot, ← write_lastBit p s (by omega : j % 8 = 7)]
    rfl

/-! ### The core's moves -/

section
variable {s : State} {i : Instr} (hd : decode s.desc.cmd = .ok i)
include hd

theorem launch_eq_atSlot (hc : startCheck i.kind s.desc s.caps = none) : launch s = s.atSlot i.kind 0 := by
  rw [launch_of_check_none hd hc, State.atSlot, slotsDone_zero, byteInWork_zero, cursorAt_zero]

/-- While a slot operation is left, the core's move is the next one. -/
theorem tick_atSlot {j : Nat} (h : j < 8 * workBytes i.kind s.desc) :
    tick (s.atSlot i.kind j) = .next (s.atSlot i.kind (j + 1)) := by
  have hc := cursorAt_of_lt (byteInWork i.kind j s) h
  cases hk : i.kind with
  | encode p =>
    rw [hk] at h hc
    rw [← tickEncode_atSlot p s h]
    simp only [tick, State.atSlot, hd, hc, hk]
    rfl
  | decode p =>
    rw [hk] at h hc
    rw [← tickDecode_atSlot p s h]
    simp only [tick, State.atSlot, hd, hc, hk]
  | _ => rw [hk] at h; simp [workBytes] at h

/-- After the last slot operation, the core's move ends the command in the state that its body gives (R235). -/
theorem tick_atSlot_end :
    tick (s.atSlot i.kind (8 * workBytes i.kind s.desc)) = .next (bodyOf i.kind s.desc s.accept) := by
  have ht : tick (s.atSlot i.kind (8 * workBytes i.kind s.desc)) =
      .next (endCommand i.kind s.desc (s.atSlot i.kind (8 * workBytes i.kind s.desc))) := by
    simp only [tick, State.atSlot, hd, cursorAt_end]
  rw [ht]
  congr 1
  cases hk : i.kind with
  | encode p =>
    rw [bodyOf, encodeBytes_eq_slots]
    rfl
  | decode p =>
    rw [State.atSlot, slotsDone, workBytes, Nat.mul_div_cancel_left _ (by decide)]
    rfl
  | estimate p => rfl
  | getbit => simp only [endCommand, bodyOf, getbitBody]; split <;> rfl
  | setbit => simp only [endCommand, bodyOf, setbitBody]; split <;> rfl
  | fixup => rfl

theorem ticks_launch (hc : startCheck i.kind s.desc s.caps = none) {j : Nat} (h : j ≤ 8 * workBytes i.kind s.desc) :
    ticks j (launch s) = .next (s.atSlot i.kind j) := by
  induction j with
  | zero => rw [ticks, launch_eq_atSlot hd hc]
  | succ j ih => rw [ticks_succ_last (ih (by omega)), tick_atSlot hd h]

/-- The whole run: the slot operations and the ending move reach what `exec` answers in one step. -/
theorem ticks_launch_eq_exec (hc : startCheck i.kind s.desc s.caps = none) :
    ticks (8 * workBytes i.kind s.desc + 1) (launch s) = exec i s := by
  rw [ticks_succ_last (ticks_launch hd hc (Nat.le_refl _)), tick_atSlot_end hd, exec_of_check_none hc]

end

/-- Settles O51: the core's moves from START go through the states `atSlot`, all BUSY, and end where `exec` does. -/
theorem slotBySlotRunIsTheCommand : Obligations.SlotBySlotRunIsTheCommand := by
  unfold Obligations.SlotBySlotRunIsTheCommand
  intro s i hd
  rcases exec_cases i s with ⟨c, hc, he⟩ | ⟨hc, he⟩
  · exact ⟨_, he, .inl ⟨by simp [hc], launch_of_check_some hd hc⟩⟩
  · exact ⟨_, he, .inr ⟨hc, fun k hk => ⟨_, ticks_launch hd hc hk, s.atSlot_phase i.kind k⟩,
      (ticks_launch_eq_exec hd hc).trans he⟩⟩

end Sys2Proof.Machine
end

section
/-! SUPPORT. What the host's actions can answer (R50, R237, R280), and what every step keeps: the capacities (R10, R36)
and the invariant of the machine (R20, R27, R29, R30, R50, R251). A command as one step keeps the invariant because its
slot operations do. -/

namespace Sys2Proof.Machine

/-! ### What the host's actions and a step can answer -/

/-- What a write to CTRL can answer: CLR first where bit 1 is set, then START where bit 0 is set (R237). -/
theorem strobe_cases {v : BitVec 8} {s t : State} (h : strobe v s = .next t) :
    ∃ u, (u = s ∨ u = s.clear) ∧ (t = u ∨ start u = .next t) := by
  refine ⟨if v.getLsbD 1 then s.clear else s, ?_, ?_⟩
  · split
    · exact .inr rfl
    · exact .inl rfl
  · simp only [strobe] at h
    generalize (if v.getLsbD 1 then s.clear else s) = u at h ⊢
    split at h
    · exact .inr h
    · cases h; exact .inl rfl

/-- What a host write to a register can answer: a strobe of CTRL, or another descriptor, whose reserved bits of ARG are
still 0 where they were (R27), or nothing. -/
theorem writeReg_cases {v : RegVal} {s t : State} (h : writeReg v s = .next t) :
    (∃ w, v = .ctrl w ∧ strobe w s = .next t) ∨
    ∃ d : Descriptor, t = { s with desc := d } ∧ (s.desc.argOk = true → d.argOk = true) := by
  cases v with
  | ctrl w => exact .inl ⟨w, rfl, h⟩
  | arg w =>
    cases h
    refine .inr ⟨_, rfl, fun _ => ?_⟩
    have hle : (argStored w).toNat ≤ 0x1FFFF := by
      rw [argStored, BitVec.toNat_and]; exact Nat.and_le_right
    simp only [Descriptor.argOk, decide_eq_true_eq]
    omega
  | _ => cases h; exact .inr ⟨_, rfl, id⟩

/-- What a host access to a memory can answer: the bytes it writes are at addresses that exist (R50). -/
theorem hostLoad_cases {S : Space} {a : Nat} {vs : List Byte} {s t : State} (h : hostLoad S a vs s = .next t) :
    (vs = [] ∨ a + vs.length ≤ s.caps.of S) ∧ t = s.writeList S a vs := by
  unfold hostLoad at h
  split at h <;> cases h
  exact ⟨‹_›, rfl⟩

/-- FILL is LOAD of equal bytes, where it answers a next state (R93). -/
theorem hostFill_cases {S : Space} {a n : Nat} {v : Byte} {s t : State} (h : hostFill S a n v s = .next t) :
    hostLoad S a (List.replicate n v) s = .next t := by
  unfold hostFill at h
  split at h <;> cases h
  rw [hostLoad, if_pos (by simpa using ‹_›)]

theorem hostPeek_cases {S : Space} {a : Nat} {s t : State} (h : hostPeek S a s = .next t) :
    a < s.caps.of S ∧ t = { s with seen := s.seen ++ [.mem S a (s.read S a)] } := by
  unfold hostPeek at h
  split at h <;> cases h
  exact ⟨‹_›, rfl⟩

/-- What reset leaves, whether or not it abandons a command: the registers and the capacities (R280, R37), and memories
as they were or emptied (R38, R39). -/
theorem State.assertReset_fields (s : State) :
    s.assertReset.desc = Descriptor.reset ∧ s.assertReset.status = statusIdle ∧ s.assertReset.result = 0 ∧
    s.assertReset.run = none ∧ s.assertReset.caps = s.caps ∧ (s.memOk = true → s.assertReset.memOk = true) := by
  have h0 : (0 : BitVec 8) = statusIdle := by decide
  unfold State.assertReset
  split
  · exact ⟨rfl, h0, rfl, rfl, rfl, id⟩
  · exact ⟨rfl, h0, rfl, rfl, rfl, fun _ => rfl⟩

/-- What a step can be, seen from what it can change: the core's move while BUSY, a host action with the rest of the
script left to do, or nothing but the script. -/
theorem step_cases_agent {s t : State} (h : step s = .next t) :
    (s.phase = .busy ∧ tick s = .next t) ∨
    ∃ rest, t = { s with script := rest } ∨ ∃ a, hostAct a { s with script := rest } = .next t := by
  obtain ⟨hb, hturn⟩ | ⟨-, rfl | ⟨a, rest, -, ha⟩⟩ := step_cases h
  · obtain ht | ⟨rest, ⟨-, ha⟩ | ⟨v, -, rfl⟩ | ⟨-, ha⟩⟩ := busyTurn_cases hb hturn
    · exact .inl ⟨hb, ht⟩
    · exact .inr ⟨rest, .inr ⟨_, ha⟩⟩
    · exact .inr ⟨rest, .inl rfl⟩
    · exact .inr ⟨rest, .inr ⟨_, ha⟩⟩
  · exact .inr ⟨_, .inl rfl⟩
  · exact .inr ⟨rest, .inr ⟨a, ha⟩⟩

/-! ### Host accesses beyond the capacity -/

/-- Settles O44: the host's next action is tested against the capacity before it does anything. -/
theorem hostAccessBeyondCapacityStops : Obligations.HostAccessBeyondCapacityStops := by
  unfold Obligations.HostAccessBeyondCapacityStops
  intro s rest S a n v vs hp
  refine ⟨fun hs hne hlt => ?_, fun hs hn hlt => ?_, fun hs hle => ?_⟩
  · rw [step_act hp hs, hostAct, hostLoad, if_neg]
    exact not_or.mpr ⟨hne, Nat.not_le.mpr hlt⟩
  · rw [step_act hp hs, hostAct, hostFill, if_neg]
    exact not_or.mpr ⟨Nat.ne_of_gt hn, Nat.not_le.mpr hlt⟩
  · rw [step_act hp hs, hostAct, hostPeek, if_neg (Nat.not_lt.mpr hle)]

/-! ### The capacities -/

theorem tick_caps {s t : State} (h : tick s = .next t) : t.caps = s.caps := by
  obtain ⟨r, i, -, -, ⟨-, rfl⟩ | ⟨c, p, -, ⟨-, rfl⟩ | ⟨-, rfl⟩⟩⟩ := tick_cases h
  · obtain ⟨-, -, -, -, -, -, -, -, hcaps⟩ := endCommand_frame i.kind r.desc s
    exact hcaps
  · rfl
  · unfold tickDecode
    split <;> rfl

theorem exec_caps {i : Instr} {s t : State} (h : exec i s = .next t) : t.caps = s.caps := by
  rcases exec_cases i s with ⟨c, -, he⟩ | ⟨-, he⟩ <;> rw [he] at h <;> cases h
  · rfl
  · obtain ⟨-, -, -, -, -, hcaps⟩ := bodyOf_frame i.kind s.desc s.accept
    exact hcaps

theorem start_caps {s t : State} (h : start s = .next t) : t.caps = s.caps := by
  obtain ⟨u, hu, hcases⟩ := start_cases s
  cases hu.symm.trans h
  obtain ⟨rfl, -⟩ | ⟨rfl, -⟩ | ⟨-, i, -, he⟩ := hcases
  · rfl
  · rfl
  · exact exec_caps he

theorem strobe_caps {v : BitVec 8} {s t : State} (h : strobe v s = .next t) : t.caps = s.caps := by
  obtain ⟨u, hu, ht⟩ := strobe_cases h
  have hus : u.caps = s.caps := by
    obtain rfl | rfl := hu
    · rfl
    · exact s.clear_caps
  obtain rfl | ht := ht
  · exact hus
  · exact (start_caps ht).trans hus

theorem hostLoad_caps {S : Space} {a : Nat} {vs : List Byte} {s t : State} (h : hostLoad S a vs s = .next t) :
    t.caps = s.caps := by
  obtain ⟨-, rfl⟩ := hostLoad_cases h
  obtain ⟨-, -, -, -, -, -, -, -, hcaps⟩ := s.writeList_fields vs S a
  exact hcaps

theorem hostAct_caps {a : HostAct} {s t : State} (h : hostAct a s = .next t) : t.caps = s.caps := by
  cases a with
  | wr v =>
    obtain ⟨w, -, hw⟩ | ⟨d, rfl, -⟩ := writeReg_cases h
    · exact strobe_caps hw
    · rfl
  | fill S a n v => exact hostLoad_caps (hostFill_cases h)
  | load S a vs => exact hostLoad_caps h
  | peek S a => obtain ⟨-, rfl⟩ := hostPeek_cases h; rfl
  | rd r => cases h; rfl
  | rnd ds => cases h; rfl
  | draw => cases h; rfl
  | reset =>
    cases h
    obtain ⟨-, -, -, -, hcaps, -⟩ := s.assertReset_fields
    exact hcaps

/-- Settles O48, agent by agent: the core's move and each host action keep the capacities. -/
theorem capacitiesNeverChange : Obligations.CapacitiesNeverChange := by
  unfold Obligations.CapacitiesNeverChange
  intro s t h
  obtain ⟨-, ht⟩ | ⟨rest, rfl | ⟨a, ha⟩⟩ := step_cases_agent h
  · exact tick_caps ht
  · rfl
  · exact hostAct_caps (s := { s with script := rest }) ha

/-! ### The parts of the invariant -/

theorem State.inv_iff (s : State) : s.inv = true ↔
    s.statusOk = true ∧ s.desc.argOk = true ∧ s.memOk = true ∧ s.caps.ok = true ∧ s.runOk = true := by
  simp only [State.inv, Bool.and_eq_true, and_assoc]

theorem Running.ok_iff {r : Running} {c : Caps} {i : Instr} (hd : decode r.desc.cmd = .ok i) :
    r.ok c = true ↔ startCheck i.kind r.desc c = none ∧ r.desc.argOk = true ∧ r.cursorOk i.kind = true := by
  simp only [Running.ok, hd, Bool.and_eq_true, beq_iff_eq, and_assoc]

theorem Running.ok_of_checked {d : Descriptor} {cur : Option Cursor} {c : Caps} {i : Instr}
    (hd : decode d.cmd = .ok i) (hcheck : startCheck i.kind d c = none) (harg : d.argOk = true)
    (hcur : Running.cursorOk ⟨d, cur⟩ i.kind = true) : Running.ok ⟨d, cur⟩ c = true :=
  (Running.ok_iff (r := ⟨d, cur⟩) hd).mpr ⟨hcheck, harg, hcur⟩

theorem State.runOk_of_some {s : State} {r : Running} (hr : s.run = some r) :
    s.runOk = true ↔ s.phase = .busy ∧ r.ok s.caps = true := by
  simp only [State.runOk, hr, Bool.and_eq_true, State.isBusy_iff]

theorem State.runOk_of_none {s : State} (hr : s.run = none) : s.runOk = true ↔ s.phase ≠ .busy := by
  simp [State.runOk, hr, State.isBusy]

/-- Outside BUSY no command is running (R20). -/
theorem State.run_eq_none {s : State} (h : s.runOk = true) (hp : s.phase ≠ .busy) : s.run = none := by
  cases hr : s.run with
  | none => rfl
  | some r => exact absurd ((State.runOk_of_some hr).mp h).1 hp

/-- RESULT is 0 while BUSY, since RVALID is set only in DONE (R29, R31). -/
theorem State.result_eq_zero_of_busy {s : State} (h : s.statusOk = true) (hp : s.phase = .busy) : s.result = 0 := by
  simp only [State.statusOk, hp, Bool.and_eq_true, Bool.or_eq_true, Bool.not_eq_true', beq_iff_eq] at h
  obtain ⟨⟨-, hdone⟩, hresult⟩ := h
  have hrvalid : rvalidOf s.status = false := hdone.resolve_right (by decide)
  exact hresult.resolve_left (by simp [hrvalid])

theorem State.statusOk_accept (s : State) : s.accept.statusOk = true := by
  simp [State.statusOk]; decide

/-- STATUS of IDLE with a cleared RESULT is in order. -/
theorem State.statusOk_of_idle {s : State} (hstatus : s.status = statusIdle) (hresult : s.result = 0) :
    s.statusOk = true := by
  simp [State.statusOk, State.phase, hstatus, hresult]; decide

/-- The cursor of a launched command is on its first slot, if it has one (R30). -/
theorem Running.cursorOk_first (d : Descriptor) (k : Kind) :
    Running.cursorOk ⟨d, Cursor.first (workBytes k d)⟩ k = true := by
  unfold Running.cursorOk Cursor.first
  by_cases h : workBytes k d = 0
  · simp [h]
  · simp [h, Nat.pos_of_ne_zero h]

/-- A slot operation leaves the cursor in range (R30). -/
theorem Running.cursorOk_next {d : Descriptor} {k : Kind} {c : Cursor} (hi : c.i ≤ 7) (hb : c.b < workBytes k d) :
    Running.cursorOk ⟨d, c.next (workBytes k d)⟩ k = true := by
  unfold Running.cursorOk
  cases hn : c.next (workBytes k d) with
  | none => rfl
  | some c' => simpa using Cursor.next_in_range hi hb hn

/-! ### What the parts of a command keep -/

/-- A state that has come to its end, out of one that met the invariant, meets it. -/
theorem State.inv_of_ended {s t : State} (hs : s.inv = true) (hstatus : t.statusOk = true) (hphase : t.phase ≠ .busy)
    (hrun : t.run = none) (hdesc : t.desc = s.desc) (hmem : t.memOk = s.memOk) (hcaps : t.caps = s.caps) :
    t.inv = true := by
  obtain ⟨-, harg, hm, hc, -⟩ := s.inv_iff.mp hs
  exact t.inv_iff.mpr ⟨hstatus, hdesc ▸ harg, hmem ▸ hm, hcaps ▸ hc, (State.runOk_of_none hrun).mpr hphase⟩

theorem State.inv_raiseFault_accept {s : State} (h : s.inv = true) (c : Cause) : (s.accept.raiseFault c).inv = true :=
  State.inv_of_ended h (State.statusOk_raiseFault _ c rfl) (by simp) rfl rfl rfl rfl

/-- An accepted START keeps the invariant: FAULT with no command running, or BUSY with a checked one at its first slot
(R230, R233). -/
theorem launch_inv {s : State} (h : s.inv = true) : (launch s).inv = true := by
  cases hd : decode s.desc.cmd with
  | illegal why =>
    have hl : launch s = s.accept.raiseFault .illegalCommand := by simp only [launch, hd]
    exact hl ▸ State.inv_raiseFault_accept h _
  | ok i =>
    cases hc : startCheck i.kind s.desc s.caps with
    | some c => exact launch_of_check_some hd hc ▸ State.inv_raiseFault_accept h c
    | none =>
      obtain ⟨-, harg, hmem, hcaps, -⟩ := s.inv_iff.mp h
      rw [launch_of_check_none hd hc]
      exact (State.inv_iff _).mpr ⟨s.statusOk_accept, harg, hmem, hcaps,
        (State.runOk_of_some rfl).mpr ⟨phaseOf_busy, Running.ok_of_checked hd hc harg (Running.cursorOk_first _ _)⟩⟩

/-- The end of a command leaves STATUS in order and not BUSY. -/
theorem endCommand_statusOk (k : Kind) (d : Descriptor) {s : State} (h : s.result = 0) :
    (endCommand k d s).statusOk = true ∧ (endCommand k d s).phase ≠ .busy := by
  have hwith : ∀ (u : State) v, (u.completeWith v).statusOk = true ∧ (u.completeWith v).phase ≠ .busy :=
    fun u v => ⟨u.statusOk_completeWith v, by simp⟩
  have hfault : ∀ c, (s.raiseFault c).statusOk = true ∧ (s.raiseFault c).phase ≠ .busy :=
    fun c => ⟨s.statusOk_raiseFault c h, by simp⟩
  have hdone : s.complete.statusOk = true ∧ s.complete.phase ≠ .busy := ⟨s.statusOk_complete h, by simp⟩
  cases k with
  | estimate p => exact hwith _ _
  | encode p => exact hdone
  | decode p => exact hdone
  | getbit =>
    simp only [endCommand, getbitBody]
    split
    · exact hwith _ _
    · exact hfault _
  | setbit =>
    simp only [endCommand, setbitBody]
    split
    · exact hwith _ _
    · exact hfault _
  | fixup => exact hwith _ _

/-- A slot operation keeps the invariant where it keeps the memories in order: the running command moves its cursor on
and nothing else of the invariant is touched. -/
theorem State.inv_of_slot {s u : State} {r : Running} {i : Instr} {c : Cursor} (hs : s.inv = true)
    (hr : s.run = some r) (hd : decode r.desc.cmd = .ok i) (hi : c.i ≤ 7) (hb : c.b < workBytes i.kind r.desc)
    (hu : u.desc = s.desc ∧ u.status = s.status ∧ u.result = s.result ∧ u.caps = s.caps) (hmem : u.memOk = true) :
    ({ u with run := some ⟨r.desc, c.next (workBytes i.kind r.desc)⟩ } : State).inv = true := by
  obtain ⟨hdesc, hstatus, hresult, hcaps⟩ := hu
  obtain ⟨hst, harg, -, hc, hrun⟩ := s.inv_iff.mp hs
  obtain ⟨hbusy, hok⟩ := (State.runOk_of_some hr).mp hrun
  obtain ⟨hcheck, hrarg, -⟩ := (Running.ok_iff hd).mp hok
  refine (State.inv_iff _).mpr
    ⟨(State.statusOk_congr hstatus hresult).trans hst, hdesc ▸ harg, hmem, hcaps ▸ hc, (State.runOk_of_some rfl).mpr ?_⟩
  exact ⟨(congrArg phaseOf hstatus).trans hbusy,
    Running.ok_of_checked hd (hcaps ▸ hcheck) hrarg (Running.cursorOk_next hi hb)⟩

/-- The core's move keeps the invariant: a slot of a checked command lies inside its memory (R57). -/
theorem tick_inv {s t : State} (hs : s.inv = true) (h : tick s = .next t) : t.inv = true := by
  obtain ⟨hst, -, hmem, -, hrun⟩ := s.inv_iff.mp hs
  obtain ⟨r, i, hr, hd, hmove⟩ := tick_cases h
  obtain ⟨hbusy, hok⟩ := (State.runOk_of_some hr).mp hrun
  obtain ⟨hcheck, -, hcur⟩ := (Running.ok_iff hd).mp hok
  obtain ⟨-, rfl⟩ | ⟨c, p, hc, hslot⟩ := hmove
  · obtain ⟨hdesc, hpix, hpay, hout, hnone, -, -, -, hcaps⟩ := endCommand_frame i.kind r.desc s
    obtain ⟨hst', hphase⟩ := endCommand_statusOk i.kind r.desc (State.result_eq_zero_of_busy hst hbusy)
    exact State.inv_of_ended hs hst' hphase hnone hdesc
      (by simp only [State.memOk, hpix, hpay, hout, hcaps]) hcaps
  · simp only [Running.cursorOk, hc, Bool.and_eq_true, decide_eq_true_eq] at hcur
    obtain ⟨hi, hb⟩ := hcur
    obtain ⟨hk, rfl⟩ | ⟨hk, rfl⟩ := hslot
    · have hw : nEnc p r.desc = workBytes i.kind r.desc := by rw [hk]; rfl
      rw [hk, startCheck_encode_none] at hcheck
      have haddr := addr_lt_of_work (i := c.i) hcheck.1 (hw ▸ hb) (by omega)
      rw [tickEncode, hw]
      exact State.inv_of_slot hs hr hd hi hb ⟨rfl, rfl, rfl, rfl⟩ (encodeSlot_memOk hmem haddr)
    · have hw : nDec p r.desc = workBytes i.kind r.desc := by rw [hk]; rfl
      rw [hk, startCheck_decode_none] at hcheck
      have hout : c.b < s.caps.out := by
        have : nDec p r.desc ≤ r.desc.len.toNat := Nat.min_le_left _ _
        omega
      simp only [tickDecode, hw]
      refine State.inv_of_slot (c := { c with ob := decodeSlot s p c.b c.i c.ob }) hs hr hd hi hb ?_ ?_
      · split <;> exact ⟨rfl, rfl, rfl, rfl⟩
      · split
        · exact hmem
        · exact State.memOk_write .out _ hmem hout

theorem ticks_inv {n : Nat} {s t : State} (hs : s.inv = true) (h : ticks n s = .next t) : t.inv = true := by
  induction n generalizing s with
  | zero => cases h; exact hs
  | succ n ih =>
    rw [ticks] at h
    cases ht : tick s with
    | next u => rw [ht] at h; exact ih (tick_inv hs ht) h
    | fault f => rw [ht] at h; cases h
    | refused f => rw [ht] at h; cases h

/-- A command as one step keeps the invariant, being the command slot by slot (R235). -/
theorem exec_inv {i : Instr} {s t : State} (hs : s.inv = true) (hd : decode s.desc.cmd = .ok i)
    (h : exec i s = .next t) : t.inv = true := by
  rcases exec_cases i s with ⟨c, -, he⟩ | ⟨hc, -⟩
  · cases he.symm.trans h
    exact State.inv_raiseFault_accept hs c
  · exact ticks_inv (launch_inv hs) ((ticks_launch_eq_exec hd hc).trans h)

theorem start_inv {s t : State} (hs : s.inv = true) (h : start s = .next t) : t.inv = true := by
  obtain ⟨u, hu, hcases⟩ := start_cases s
  cases hu.symm.trans h
  obtain ⟨rfl, -⟩ | ⟨rfl, -⟩ | ⟨-, i, hd, he⟩ := hcases
  · exact hs
  · exact State.inv_raiseFault_accept hs _
  · exact exec_inv hs hd he

/-! ### What the host's actions keep -/

/-- CLR keeps the invariant: it leaves IDLE with every flag 0, out of a state in which no command is running (R231). -/
theorem State.clear_inv {s : State} (hs : s.inv = true) : s.clear.inv = true := by
  obtain h | ⟨hp, h⟩ := s.clear_cases
  · rwa [h]
  · obtain ⟨-, -, -, -, hrun⟩ := s.inv_iff.mp hs
    have hnone : s.run = none := State.run_eq_none hrun (by rcases hp with hp | hp <;> simp [hp])
    rw [h]
    exact State.inv_of_ended hs (State.statusOk_of_idle rfl rfl) (by simp [State.phase]) hnone rfl rfl rfl

theorem strobe_inv {v : BitVec 8} {s t : State} (hs : s.inv = true) (h : strobe v s = .next t) : t.inv = true := by
  obtain ⟨u, hu, ht⟩ := strobe_cases h
  have hui : u.inv = true := by
    obtain rfl | rfl := hu
    · exact hs
    · exact State.clear_inv hs
  obtain rfl | ht := ht
  · exact hui
  · exact start_inv hui ht

/-- Another descriptor keeps the invariant: a running command works on the latched one (R33). -/
theorem State.inv_withDesc {s : State} {d : Descriptor} (hs : s.inv = true) (hd : s.desc.argOk = true → d.argOk = true) :
    ({ s with desc := d } : State).inv = true := by
  obtain ⟨hst, harg, hmem, hcaps, hrun⟩ := s.inv_iff.mp hs
  exact (State.inv_iff _).mpr ⟨hst, hd harg, hmem, hcaps, hrun⟩

theorem hostLoad_inv {S : Space} {a : Nat} {vs : List Byte} {s t : State} (hs : s.inv = true)
    (h : hostLoad S a vs s = .next t) : t.inv = true := by
  obtain ⟨ha, rfl⟩ := hostLoad_cases h
  obtain ⟨hst, harg, hmem, hcaps, hrun⟩ := s.inv_iff.mp hs
  obtain ⟨hdesc, hstatus, hresult, hr, -, -, -, -, hc⟩ := s.writeList_fields vs S a
  have hrun' : (s.writeList S a vs).runOk = s.runOk := by
    simp only [State.runOk, State.isBusy, State.phase, hr, hstatus, hc]
  exact (State.inv_iff _).mpr ⟨(State.statusOk_congr hstatus hresult).trans hst, hdesc ▸ harg,
    State.memOk_writeList vs hmem ha, hc ▸ hcaps, hrun'.trans hrun⟩

theorem State.assertReset_inv {s : State} (hs : s.inv = true) : s.assertReset.inv = true := by
  obtain ⟨-, -, hmem, hcaps, -⟩ := s.inv_iff.mp hs
  obtain ⟨hdesc, hstatus, hresult, hrun, hc, hmem'⟩ := s.assertReset_fields
  have harg : s.assertReset.desc.argOk = true := by rw [hdesc]; decide
  have hidle : s.assertReset.phase ≠ .busy := by simp [State.phase, hstatus]
  exact (State.inv_iff _).mpr ⟨State.statusOk_of_idle hstatus hresult, harg, hmem' hmem, hc ▸ hcaps,
    (State.runOk_of_none hrun).mpr hidle⟩

/-- Every host action keeps the invariant. What the host does next, what it has read and the source are no part of it. -/
theorem hostAct_inv {a : HostAct} {s t : State} (hs : s.inv = true) (h : hostAct a s = .next t) : t.inv = true := by
  cases a with
  | wr v =>
    obtain ⟨w, -, hw⟩ | ⟨d, rfl, hd⟩ := writeReg_cases h
    · exact strobe_inv hs hw
    · exact State.inv_withDesc hs hd
  | fill S a n v => exact hostLoad_inv hs (hostFill_cases h)
  | load S a vs => exact hostLoad_inv hs h
  | peek S a => obtain ⟨-, rfl⟩ := hostPeek_cases h; exact hs
  | rd r => cases h; exact hs
  | rnd ds => cases h; exact hs
  | draw => cases h; exact hs
  | reset => cases h; exact State.assertReset_inv hs

/-- Settles O50, agent by agent: the core's move and each host action keep the invariant. -/
theorem stepKeepsTheInvariant : Obligations.StepKeepsTheInvariant := by
  unfold Obligations.StepKeepsTheInvariant
  intro s t hs h
  obtain ⟨-, ht⟩ | ⟨rest, rfl | ⟨a, ha⟩⟩ := step_cases_agent h
  · exact tick_inv hs ht
  · exact hs
  · exact hostAct_inv (s := { s with script := rest }) hs ha

end Sys2Proof.Machine
end

section
/-! SUPPORT. What a command leaves alone and what it does not look at (R20, R23, R32, R34, R61, R85, R230), and the walk of
its cursor (R30, R33). -/

namespace Sys2Proof.Machine

/-! ### What a command writes -/

/-- Which body writes PIX, which writes OUT and which draw (R32, R34, R61). -/
theorem bodyOf_writes (k : Kind) (d : Descriptor) (s : State) :
    ((∀ p, k ≠ .encode p) → (bodyOf k d s).pix = s.pix) ∧ ((∀ p, k ≠ .decode p) → (bodyOf k d s).out = s.out) ∧
    ((∀ p, k ≠ .encode p) → k ≠ .fixup → (bodyOf k d s).rnd = s.rnd) := by
  cases k with
  | estimate p => exact ⟨fun _ => rfl, fun _ => rfl, fun _ _ => rfl⟩
  | encode p =>
    obtain ⟨-, -, -, -, hout, -, -, -, -, -⟩ := encodeSlots_frame p (8 * nEnc p d) s
    rw [bodyOf, encodeBytes_eq_slots]
    exact ⟨fun h => absurd rfl (h p), fun _ => hout, fun h => absurd rfl (h p)⟩
  | decode p =>
    obtain ⟨-, -, -, hpix, -, -, hrnd, -, -, -, -⟩ := decodeBytes_frame p (nDec p d) s
    exact ⟨fun _ => hpix, fun h => absurd rfl (h p), fun _ _ => hrnd⟩
  | getbit => simp only [bodyOf, getbitBody]; split <;> exact ⟨fun _ => rfl, fun _ => rfl, fun _ _ => rfl⟩
  | setbit => simp only [bodyOf, setbitBody]; split <;> exact ⟨fun _ => rfl, fun _ => rfl, fun _ _ => rfl⟩
  | fixup => exact ⟨fun _ => rfl, fun _ => rfl, fun _ h => absurd rfl h⟩

/-- Settles O30: a fault of the checks writes nothing, and a body writes what is its own. -/
theorem commandsWriteOnlyTheirOwnMemory : Obligations.CommandsWriteOnlyTheirOwnMemory := by
  unfold Obligations.CommandsWriteOnlyTheirOwnMemory
  intro i s t h
  rcases exec_cases i s with ⟨c, -, he⟩ | ⟨-, he⟩ <;> rw [he] at h <;> cases h
  · exact ⟨rfl, rfl, rfl, rfl, rfl, rfl, fun _ => rfl, fun _ => rfl, fun _ _ => rfl⟩
  · obtain ⟨hdesc, hpay, hscript, hseen, hresets, hcaps⟩ := bodyOf_frame i.kind s.desc s.accept
    exact ⟨hdesc, hpay, hscript, hseen, hresets, hcaps, bodyOf_writes i.kind s.desc s.accept⟩

/-! ### What a command reads -/

section
variable {k : Kind} {d e : Descriptor} (h : SameOperands k d e)
include h

/-- The checks at START look at the operands only (R85, R233). -/
theorem startCheck_congr (c : Caps) : startCheck k d c = startCheck k e c := by
  cases k with
  | encode p => obtain ⟨hpixels, hplen⟩ := h; simp only [startCheck, hpixels, hplen]
  | decode p => obtain ⟨hpixels, hlen, holen⟩ := h; simp only [startCheck, hpixels, hlen, holen]
  | getbit => obtain ⟨-, hindex⟩ := h; simp only [startCheck, hindex]
  | setbit => obtain ⟨-, hindex, -⟩ := h; simp only [startCheck, hindex]
  | estimate p => rfl
  | fixup => rfl

/-- A body looks at the operands of the latched descriptor only (R85). -/
theorem bodyOf_congr (s : State) : bodyOf k d s = bodyOf k e s := by
  cases k with
  | estimate p => have hpixels : d.pixels = e.pixels := h; simp only [bodyOf, hpixels]
  | encode p => obtain ⟨hpixels, hplen⟩ := h; simp only [bodyOf, nEnc, hpixels, hplen]
  | decode p => obtain ⟨hpixels, hlen, -⟩ := h; simp only [bodyOf, nDec, hpixels, hlen]
  | getbit => obtain ⟨hbyte, hindex⟩ := h; simp only [bodyOf, getbitBody, hbyte, hindex]
  | setbit => obtain ⟨hbyte, hindex, hvalue⟩ := h; simp only [bodyOf, setbitBody, hbyte, hindex, hvalue]
  | fixup => obtain ⟨hbyte, hvalue⟩ := h; simp only [bodyOf, fixupBody, hbyte, hvalue]

end

/-- A body works on the latched descriptor: it does not look at the registers, and it ends the running command (R33). -/
theorem bodyOf_withDesc (k : Kind) (d e : Descriptor) (s : State) (r : Option Running) :
    bodyOf k d { s with desc := e, run := r } = { bodyOf k d s with desc := e } := by
  cases k with
  | encode p => simp only [bodyOf, encodeBytes_eq_slots, encodeSlots_congr]; rfl
  | decode p => simp only [bodyOf, decodeBytes_congr]; rfl
  | getbit => simp only [bodyOf, getbitBody]; split <;> rfl
  | setbit => simp only [bodyOf, setbitBody]; split <;> rfl
  | estimate p => rfl
  | fixup => rfl

/-- A command run on another descriptor, where its checks pass. -/
theorem exec_withDesc_of_check_none {i : Instr} {s : State} {d : Descriptor}
    (h : startCheck i.kind d s.caps = none) :
    exec i { s with desc := d } = .next { bodyOf i.kind d s.accept with desc := d } :=
  (exec_of_check_none (s := { s with desc := d }) h).trans
    (congrArg _ (bodyOf_withDesc i.kind d d s.accept (some ⟨d, none⟩)))

/-- Settles O31: the checks and the bodies look at the operands only. -/
theorem commandsReadOnlyTheirOperands : Obligations.CommandsReadOnlyTheirOperands := by
  unfold Obligations.CommandsReadOnlyTheirOperands
  intro i s d e hop
  have hcheck := startCheck_congr hop s.caps
  cases h : startCheck i.kind d s.caps with
  | some c =>
    exact ⟨s.accept.raiseFault c, exec_of_check_some (s := { s with desc := d }) h,
      exec_of_check_some (s := { s with desc := e }) (hcheck.symm.trans h)⟩
  | none =>
    refine ⟨bodyOf i.kind d s.accept, exec_withDesc_of_check_none h, ?_⟩
    rw [bodyOf_congr hop]
    exact exec_withDesc_of_check_none (hcheck.symm.trans h)

/-- Settles O32: START overwrites STATUS and RESULT before the command looks at anything. -/
theorem commandsIgnoreTheOldStatusAndResult : Obligations.CommandsIgnoreTheOldStatusAndResult := by
  unfold Obligations.CommandsIgnoreTheOldStatusAndResult
  intro i s st res
  exact exec_congr i s st res s.run

/-! ### The cursor's walk -/

theorem State.atSlot_run (s : State) (k : Kind) (j : Nat) :
    (s.atSlot k j).run = some ⟨s.desc, cursorAt (workBytes k s.desc) j (byteInWork k j s)⟩ := rfl

/-- Settles O53: the state after `k` slot operations is `atSlot k`, whose cursor is `cursorAt k`. -/
theorem cursorWalksTheSlotsInOrder : Obligations.CursorWalksTheSlotsInOrder := by
  unfold Obligations.CursorWalksTheSlotsInOrder
  intro s i k hd hc
  refine ⟨fun hk => ?_, fun hk => ?_⟩
  · refine ⟨_, byteInWork i.kind k s, ticks_launch hd hc (Nat.le_of_lt hk), ?_, by omega⟩
    rw [State.atSlot_run, cursorAt_of_lt _ hk]
  · refine ⟨_, ticks_launch hd hc (Nat.le_of_eq hk), ?_⟩
    rw [State.atSlot_run, hk, cursorAt_end]

end Sys2Proof.Machine
end

section
/-! SUPPORT. What each action of the host does: its register and memory accesses (R21 to R28, R32, R50, R58, R93), its own
draw (R34, R285), the reset input (R37, R280), and what BUSY leaves to it (R62, R230, R232). -/

namespace Sys2Proof.Machine

/-! ### While BUSY -/

/-- Unless the host reads STATUS, writes CTRL or asserts reset, the core moves (R62, log entry 7). -/
theorem busyTurn_of_waiting {s : State} (hrd : ∀ rest, s.script ≠ .rd .status :: rest)
    (hctrl : ∀ v rest, s.script ≠ .wr (.ctrl v) :: rest) (hreset : ∀ rest, s.script ≠ .reset :: rest) :
    busyTurn s = tick s := by
  unfold busyTurn
  split
  · exact absurd ‹_› (hrd _)
  · exact absurd ‹_› (hctrl _ _)
  · exact absurd ‹_› (hreset _)
  · rfl

/-- Settles O39: a STATUS read is shown, a strobe is dropped, and every other action waits for the core. -/
theorem busyLeavesTheHostOnlyStatus : Obligations.BusyLeavesTheHostOnlyStatus := by
  unfold Obligations.BusyLeavesTheHostOnlyStatus
  intro s hb
  refine ⟨fun rest hs => ?_, fun v rest hs => ?_, fun hrd hctrl hreset => ?_⟩
  · rw [step_busy hb, busyTurn, hs]
    rfl
  · rw [step_busy hb, busyTurn, hs]
    exact strobe_busy (s := { s with script := rest }) v hb
  · rw [step_busy hb, busyTurn_of_waiting hrd hctrl hreset]

/-! ### Registers -/

theorem argStored_toNat (v : BitVec 32) : (argStored v).toNat = v.toNat % 2 ^ 17 := by
  rw [argStored, BitVec.toNat_and]
  exact Nat.and_two_pow_sub_one_eq_mod v.toNat 17

/-- ARG keeps its value modulo `2 ^ 17` (R27). -/
theorem argStored_eq (v : BitVec 32) : argStored v = BitVec.ofNat 32 (v.toNat % 2 ^ 17) := by
  rw [← argStored_toNat, BitVec.ofNat_toNat, BitVec.setWidth_eq]

/-- A step in which the host writes a register. -/
theorem step_write {s : State} {v : RegVal} {rest : List HostAct} (h : s.phase ≠ .busy)
    (hs : s.script = .wr v :: rest) : step s = writeReg v { s with script := rest } := step_act h hs

/-- Settles O41, register by register. -/
theorem hostRegisterWrites : Obligations.HostRegisterWrites := by
  unfold Obligations.HostRegisterWrites
  intro s rest b h w hp
  refine ⟨step_write hp, step_write hp, step_write hp, step_write hp, step_write hp, step_write hp, fun hs => ?_,
    step_write hp, step_write hp⟩
  rw [step_write hp hs, writeReg, argStored_eq]

/-- Settles O42: the list of the statement is the list of the registers with what `readReg` answers. -/
theorem hostRegisterReads : Obligations.HostRegisterReads := by
  unfold Obligations.HostRegisterReads
  intro s rest hp r v hmem hs
  change (r, v) ∈ [Reg.cmd, .width, .height, .plen, .len, .olen, .arg, .ctrl, .status, .result].map
    (fun q => (q, readReg s q)) at hmem
  obtain ⟨q, -, hq⟩ := List.mem_map.mp hmem
  cases hq
  exact step_act hp hs

/-! ### Memories -/

/-- What the host's list of bytes leaves in the memories, by the addresses it covers. -/
theorem State.read_writeList_covered (vs : List Byte) (s : State) (S T : Space) (a b : Nat) :
    (s.writeList S a vs).read T b =
      if T = S ∧ a ≤ b ∧ b < a + vs.length then vs[b - a]?.getD 0 else s.read T b := by
  rw [State.read_writeList]
  by_cases hin : T = S ∧ a ≤ b
  · obtain ⟨hT, hab⟩ := hin
    by_cases hlt : b < a + vs.length
    · have hidx : b - a < vs.length := by omega
      rw [if_pos ⟨hT, hab⟩, if_pos ⟨hT, hab, hlt⟩, List.getElem?_eq_getElem hidx]
      rfl
    · have hidx : vs.length ≤ b - a := by omega
      rw [if_pos ⟨hT, hab⟩, if_neg (fun c => hlt c.2.2), List.getElem?_eq_none hidx]
      rfl
  · rw [if_neg hin, if_neg (fun c => hin ⟨c.1, c.2.1⟩)]

/-- What a fill leaves in the memories (R93). -/
theorem State.read_writeList_replicate (n : Nat) (v : Byte) (s : State) (S T : Space) (a b : Nat) :
    (s.writeList S a (List.replicate n v)).read T b =
      if T = S ∧ a ≤ b ∧ b < a + n then v else s.read T b := by
  rw [State.read_writeList_covered, List.length_replicate]
  refine if_ctx_congr Iff.rfl (fun hin => ?_) (fun _ => rfl)
  have hidx : b - a < n := by omega
  rw [List.getElem?_replicate_of_lt hidx]
  rfl

theorem hostLoad_of_le {S : Space} {a : Nat} {vs : List Byte} {s : State} (h : a + vs.length ≤ s.caps.of S) :
    hostLoad S a vs s = .next (s.writeList S a vs) := if_pos (.inr h)

theorem hostFill_of_le {S : Space} {a n : Nat} {s : State} (v : Byte) (h : a + n ≤ s.caps.of S) :
    hostFill S a n v s = .next (s.writeList S a (List.replicate n v)) := if_pos (.inr h)

theorem hostPeek_of_lt {S : Space} {a : Nat} {s : State} (h : a < s.caps.of S) :
    hostPeek S a s = .next { s with seen := s.seen ++ [.mem S a (s.read S a)] } := if_pos h

/-- Settles O43: LOAD and FILL are a list of byte writes, which change one memory, and a peek writes nothing. -/
theorem hostMemoryAccess : Obligations.HostMemoryAccess := by
  unfold Obligations.HostMemoryAccess
  intro s rest S a n v vs hp
  refine ⟨fun hs hle => ?_, fun hs hle => ?_, fun hs hlt => ?_⟩
  · obtain ⟨hdesc, hstatus, hresult, hrun, hrnd, hscript, hseen, hresets, hcaps⟩ :=
      State.writeList_fields vs { s with script := rest } S a
    exact ⟨_, (step_act hp hs).trans (hostLoad_of_le hle), hdesc, hstatus, hresult, hrnd, hrun, hscript, hseen, hresets,
      hcaps, fun T b => State.read_writeList_covered vs { s with script := rest } S T a b⟩
  · obtain ⟨hdesc, hstatus, hresult, hrun, hrnd, hscript, hseen, hresets, hcaps⟩ :=
      State.writeList_fields (List.replicate n v) { s with script := rest } S a
    exact ⟨_, (step_act hp hs).trans (hostFill_of_le v hle), hdesc, hstatus, hresult, hrnd, hrun, hscript, hseen, hresets,
      hcaps, fun T b => State.read_writeList_replicate n v { s with script := rest } S T a b⟩
  · exact (step_act hp hs).trans (hostPeek_of_lt hlt)

/-! ### The randomness source -/

/-- An answer that the host has fixed is the one given (R34, R93). -/
theorem Source.answer_of_fixed {r : Source} {j : Nat} {d : Bool} (h : r.next[j]? = some d) : r.answer j = d := by
  rw [Source.answer, h]
  rfl

/-- Settles O45: the `j`-th later draw is the `j`-th fixed answer. -/
theorem randomnessAnswersAsTheHostArranged : Obligations.RandomnessAnswersAsTheHostArranged := by
  unfold Obligations.RandomnessAnswersAsTheHostArranged
  intro s rest ds hp hs
  refine ⟨{ s.rnd with next := ds }, step_act hp hs, rfl, fun j d hj => ?_⟩
  rw [Source.draw_fst, Source.answer_skip, Nat.add_zero]
  exact Source.answer_of_fixed hj

/-- Settles O54: the host's draw is a draw of the same source, one position on. -/
theorem hostDrawTakesTheNextBit : Obligations.HostDrawTakesTheNextBit := by
  unfold Obligations.HostDrawTakesTheNextBit
  intro s rest hp hs
  refine ⟨step_act hp hs, s.rnd.skip_pos 1, fun j => ?_⟩
  rw [Source.answer_skip, Nat.add_comm]

/-! ### Reset -/

/-- Settles O46, register by register and field of STATUS by field. -/
theorem resetLeavesEveryRegisterZero : Obligations.ResetLeavesEveryRegisterZero := by
  unfold Obligations.ResetLeavesEveryRegisterZero
  have hrvalid : rvalidOf 0 = false := by decide
  have hcause : causeOf 0 = 0 := by decide
  have hillegal : (decode 0).instr? = none := by decide
  exact ⟨rfl, rfl, rfl, rfl, rfl, rfl, rfl, rfl, rfl, phaseOf_zero, hrvalid, hcause, rfl, rfl, hillegal⟩

/-- Settles O49, part by part of the invariant. -/
theorem resetMeetsTheInvariant : Obligations.ResetMeetsTheInvariant := by
  unfold Obligations.ResetMeetsTheInvariant
  have hidle : (0 : BitVec 8) = statusIdle := by decide
  have harg : Descriptor.reset.argOk = true := by decide
  have hcaps : State.reset.caps.ok = true := by decide
  have hphase : State.reset.phase ≠ .busy := by decide
  exact (State.inv_iff _).mpr ⟨State.statusOk_of_idle hidle rfl, harg, State.memOk_resetWith _, hcaps,
    (State.runOk_of_none rfl).mpr hphase⟩

/-- The reset input when no command is running: reset's registers and memories, with the source, the host and the
capacities kept (R280, R37, R34; log entry 2). -/
theorem State.assertReset_of_not_busy {s : State} (h : s.phase ≠ .busy) :
    s.assertReset = { State.resetWith s.caps with
      rnd := s.rnd, script := s.script, seen := s.seen, resets := s.resets + 1 } := by
  rw [State.assertReset, if_neg (by rwa [State.isBusy_iff])]
  rfl

/-- Settles O47: the reset input is an action of a host that has the turn, so no command is abandoned. -/
theorem resetInputRestoresTheRegisters : Obligations.ResetInputRestoresTheRegisters := by
  unfold Obligations.ResetInputRestoresTheRegisters
  intro s rest hp hs
  rw [step_act hp hs, hostAct, State.assertReset_of_not_busy (s := { s with script := rest }) hp]

end Sys2Proof.Machine
end

section
/-! SUPPORT. Memory: where the slots lie (R140, R143, R57, R59), which payload bytes an ENCODE reads (R147), and the order of
the slots of ENCODE and DECODE (R68). -/

namespace Sys2Proof.Machine

/-! ### Slot addresses -/

/-- Where a group is one payload byte, the pixel of a slot is its offset in the byte's own group (R140, R143). -/
theorem slotPixel_of_byte_group {p : Pair} (h : groupBytes p = 1) (b i : Nat) :
    slotPixel p b i = groupPixels p * b + (slot p i).1 := by
  simp [slotPixel, h, Nat.mod_one, Nat.mul_comm]

theorem slotChannel_of_byte_group {p : Pair} (h : groupBytes p = 1) (b i : Nat) :
    slotChannel p b i = (slot p i).2 := by
  simp [slotChannel, h, Nat.mod_one]

/-- The address of a slot, with the stride taken over the bytes and the bits apart. -/
theorem addr_closed_form (p : Pair) (b i : Nat) :
    addr p b i = 8 * (slotStride p).1 * b + (slotStride p).1 * i + (slotStride p).2 := by
  rw [addr_eq_stride]
  ring

/-- Settles O13: in four pairs a group is one byte, and RGB.ALL is the definition as it stands. -/
theorem slotAddressesInClosedForm : Obligations.SlotAddressesInClosedForm := by
  unfold Obligations.SlotAddressesInClosedForm
  intro b i _
  have hdense : ∀ p, slotStride p = (1, 0) → addr p b i = 8 * b + i := fun p h => by
    rw [addr_closed_form, h, Nat.mul_one, Nat.one_mul, Nat.add_zero]
  exact ⟨⟨slotPixel_of_byte_group rfl b i, slotChannel_of_byte_group rfl b i, addr_closed_form .gaAlpha b i⟩,
    ⟨slotPixel_of_byte_group rfl b i, slotChannel_of_byte_group rfl b i, hdense _ rfl⟩,
    ⟨by rw [Nat.mul_comm]; rfl, rfl, hdense _ rfl⟩,
    ⟨slotPixel_of_byte_group rfl b i, slotChannel_of_byte_group rfl b i, addr_closed_form .rgbaAlpha b i⟩,
    ⟨slotPixel_of_byte_group rfl b i, slotChannel_of_byte_group rfl b i, hdense _ rfl⟩⟩

/-- Settles O15: the order byte then bit is the order of the slots, whose addresses rise. -/
theorem slotAddressesRiseInsideTheBuffer : Obligations.SlotAddressesRiseInsideTheBuffer := by
  unfold Obligations.SlotAddressesRiseInsideTheBuffer
  intro p P b b' i i' hi hi'
  refine ⟨fun hlt => ?_, fun hb => addr_lt_of_lt_capacity p hb hi⟩
  rw [← slotAddr_of_byte p b hi, ← slotAddr_of_byte p b' hi']
  exact slotAddr_lt p (by omega)

/-! ### ENCODE and DECODE as passes over the slots, from the state before START -/

/-- ENCODE's pass does not look at what START overwrites (R230). -/
theorem encodeSlots_accept (p : Pair) (k : Nat) (s : State) : encodeSlots p k s.accept = (encodeSlots p k s).accept := by
  induction k with
  | zero => rfl
  | succ k ih => rw [encodeSlots_succ, ih]; rfl

/-- DECODE's pass does not look at what START overwrites (R230). -/
theorem decodeBytes_accept (p : Pair) (n : Nat) (s : State) : decodeBytes p n s.accept = (decodeBytes p n s).accept := by
  induction n with
  | zero => rfl
  | succ n ih =>
    change decodeByte p n (decodeBytes p n s.accept) = (decodeByte p n (decodeBytes p n s)).accept
    rw [ih]
    rfl

/-- ENCODE, where its descriptor fits, is the pass over the slots of its `n_enc` payload bytes (R147). -/
theorem exec_encodeOf_of_fits {p : Pair} {s : State} (h : EncodeFits p s) :
    exec (encodeOf p) s = .next (encodeSlots p (8 * nEnc p s.desc) s).accept.complete := by
  have hc : startCheck (encodeOf p).kind s.desc s.caps = none := by
    rw [kind_encodeOf]
    exact startCheck_encode_none.mpr h
  rw [exec_of_check_none hc, kind_encodeOf, bodyOf, encodeBytes_eq_slots, encodeSlots_accept]

/-- DECODE, where its descriptor fits and LEN <= OLEN, is the pass over its `n_dec` output bytes (R149). -/
theorem exec_decodeOf_of_fits {p : Pair} {s : State} (h : DecodeFits p s)
    (hlen : s.desc.len.toNat ≤ s.desc.olen.toNat) :
    exec (decodeOf p) s = .next (decodeBytes p (nDec p s.desc) s).accept.complete := by
  have hc : startCheck (decodeOf p).kind s.desc s.caps = none := by
    rw [kind_decodeOf]
    exact startCheck_decode_none.mpr ⟨h.1, h.2, hlen⟩
  rw [exec_of_check_none hc, kind_decodeOf, bodyOf, decodeBytes_accept]

/-! ### The payload bytes that ENCODE reads -/

/-- The slots of the first `n` payload bytes read these bytes of PAY only, and leave PAY as it is (R59, R147). -/
theorem encodeSlots_withPay (p : Pair) {k n : Nat} {s : State} {m : Memory}
    (h : ∀ b, b < n → ({ s with pay := m } : State).read .pay b = s.read .pay b) (hk : k ≤ 8 * n) :
    encodeSlots p k { s with pay := m } = { encodeSlots p k s with pay := m } := by
  induction k with
  | zero => rfl
  | succ k ih =>
    have hbyte : (encodeSlots p k { s with pay := m }).read .pay (k / 8) = (encodeSlots p k s).read .pay (k / 8) := by
      rw [encodeSlots_read_pay, encodeSlots_read_pay, h (k / 8) (by omega)]
    rw [encodeSlots_succ, hbyte, ih (by omega)]
    rfl

/-- Settles O22: the pass over the slots reads the first `n_enc` bytes of PAY and never writes PAY. -/
theorem encodeReadsNoPayloadBeyondItsCount : Obligations.EncodeReadsNoPayloadBeyondItsCount := by
  unfold Obligations.EncodeReadsNoPayloadBeyondItsCount
  intro p s m hfits hpay
  refine ⟨_, exec_encodeOf_of_fits hfits, ?_⟩
  have he := exec_encodeOf_of_fits (p := p) (s := { s with pay := m }) hfits
  rw [encodeSlots_withPay p hpay (Nat.le_refl _)] at he
  exact he

/-! ### The order of the slots -/

/-- How many draws come before a slot does not depend on the source (R157). -/
theorem drawsInOrder_withRnd (p : Pair) (s : State) (r : Source) (ks : List Nat) (k : Nat) :
    drawsInOrder p { s with rnd := r } ks k = drawsInOrder p s ks k := by
  induction ks with
  | nil => rfl
  | cons j ks ih => rw [drawsInOrder, drawsInOrder, ih]; rfl

/-- A visited slot, where the draws come from the source `r`. -/
theorem encodeInOrder_withRnd_read_slot (p : Pair) {ks : List Nat} (s : State) (r : Source) (hn : ks.Nodup) {k : Nat}
    (hk : k ∈ ks) : (encodeInOrder p ks { s with rnd := r }).read .pix (slotAddr p k) =
      fixupValue (slotValue p s k) (slotBit s k) (r.answer (drawsInOrder p s ks k)) := by
  rw [encodeInOrder_read_slot p _ hn hk, drawsInOrder_withRnd]
  rfl

/-- Two orders of the same slots leave the same bytes, from two sources that answer equally in each slot that takes a
draw (R68). -/
theorem encodeInOrder_read_of_perm (p : Pair) (s : State) {ks js : List Nat} (q r : Source) (hp : ks.Perm js)
    (hn : js.Nodup)
    (h : ∀ k ∈ ks, interiorMismatch (slotValue p s k) (slotBit s k) = true →
      r.answer (drawsInOrder p s ks k) = q.answer (drawsInOrder p s js k)) (S : Space) (a : Nat) :
    (encodeInOrder p ks { s with rnd := r }).read S a = (encodeInOrder p js { s with rnd := q }).read S a := by
  by_cases hslot : S = .pix ∧ ∃ k ∈ ks, a = slotAddr p k
  · obtain ⟨rfl, k, hk, rfl⟩ := hslot
    rw [encodeInOrder_withRnd_read_slot p s r (hp.nodup_iff.mpr hn) hk,
      encodeInOrder_withRnd_read_slot p s q hn (hp.mem_iff.mp hk)]
    cases hm : interiorMismatch (slotValue p s k) (slotBit s k) with
    | false => exact fixupValue_draw_irrelevant _ _ hm
    | true => rw [h k hk hm]
  · have hks : S = .pix → ∀ k ∈ ks, a ≠ slotAddr p k := fun hS k hk ha => hslot ⟨hS, k, hk, ha⟩
    have hjs : S = .pix → ∀ k ∈ js, a ≠ slotAddr p k := fun hS k hk => hks hS k (hp.mem_iff.mpr hk)
    rw [encodeInOrder_read_other p ks _ hks, encodeInOrder_read_other p js _ hjs, State.withRnd_read s r,
      State.withRnd_read s q]

/-- Any order of the slots of the first `n` output bytes leaves what DECODE's pass leaves: each bit of OUT has one slot
(R68, R149). -/
theorem decodeInOrder_read_of_perm (p : Pair) (s : State) {ks : List Nat} {n : Nat} (hp : ks.Perm (List.range (8 * n)))
    (S : Space) (a : Nat) : (decodeInOrder p ks s).read S a = (decodeBytes p n s).read S a := by
  cases S with
  | pix => rw [decodeInOrder_read_other p ks s a (by decide), decodeBytes_read_pix]
  | pay => rw [decodeInOrder_read_other p ks s a (by decide), decodeBytes_read_pay]
  | out =>
    refine byte_ext fun i hi => ?_
    have hmem : 8 * a + i ∈ ks ↔ a < n := by
      rw [hp.mem_iff, List.mem_range]
      omega
    rw [bit_decodeInOrder p ks s a hi, decodeBytes_read_out, slotValue, slotAddr_of_byte p a hi]
    by_cases ha : a < n
    · rw [if_pos (hmem.mpr ha), if_pos ha, bit_decodedByte s p a hi]
    · rw [if_neg (mt hmem.mp ha), if_neg ha]

/-- Settles O52: ENCODE is the pass in ascending order, and a slot's byte depends on the order through its draw only;
DECODE takes no draw. -/
theorem slotOrderShowsOnlyInTheDraws : Obligations.SlotOrderShowsOnlyInTheDraws := by
  unfold Obligations.SlotOrderShowsOnlyInTheDraws
  intro p s ks
  refine ⟨fun hn k hk => ?_, fun S a => encodeInOrder_read_other p ks s, fun hfits hp => ?_, fun hfits hlen hp => ?_⟩
  · rw [encodeInOrder_read_slot p s hn hk, fixup_eq, Source.answer_skip, Nat.add_zero]
    rfl
  · refine ⟨_, exec_encodeOf_of_fits hfits, fun r hr S a => ?_⟩
    rw [State.complete_read, State.accept_read, ← encodeInOrder_range]
    refine (encodeInOrder_read_of_perm p s s.rnd r hp List.nodup_range (fun k hk hm => ?_) S a).symm
    rw [drawsInOrder_range p s (List.mem_range.mp (hp.mem_iff.mp hk))]
    exact hr k hk hm
  · refine ⟨_, exec_decodeOf_of_fits hfits hlen, fun S a => ?_⟩
    rw [State.complete_read, State.accept_read, decodeInOrder_read_of_perm p s hp]

end Sys2Proof.Machine
end

section
/-! SUPPORT. The encoding (R80 to R88) and the assembler's names (R90 to R92): every command's fields decode to it and
no other fields do, so that the opcode map, the illegal words and the well-formedness check follow. -/

namespace Sys2Proof

open Sys2Proof.Laws

/-! ### Words and their fields -/

theorem Instr.wordLegal : ∀ i : Instr, WordLegal.Statement i
  | .estimateGaAlpha => WordLegal.estimateGaAlpha
  | .encodeGaAlpha => WordLegal.encodeGaAlpha
  | .decodeGaAlpha => WordLegal.decodeGaAlpha
  | .getbit => WordLegal.getbit
  | .setbit => WordLegal.setbit
  | .fixup => WordLegal.fixup
  | .estimateRgbaAlpha => WordLegal.estimateRgbaAlpha
  | .encodeRgbaAlpha => WordLegal.encodeRgbaAlpha
  | .decodeRgbaAlpha => WordLegal.decodeRgbaAlpha
  | .estimateGaAll => WordLegal.estimateGaAll
  | .encodeGaAll => WordLegal.encodeGaAll
  | .decodeGaAll => WordLegal.decodeGaAll
  | .estimateRgbAll => WordLegal.estimateRgbAll
  | .encodeRgbAll => WordLegal.encodeRgbAll
  | .decodeRgbAll => WordLegal.decodeRgbAll
  | .estimateRgbaAll => WordLegal.estimateRgbaAll
  | .encodeRgbaAll => WordLegal.encodeRgbaAll
  | .decodeRgbaAll => WordLegal.decodeRgbaAll

theorem Instr.fields_wf (i : Instr) : i.fields.wf = true := i.wordLegal.1

theorem fieldsOf_encode (i : Instr) : fieldsOf (encode i) = i.fields := i.wordLegal.2.1

/-- The four fields are the whole word (R80). -/
theorem wordOf_fieldsOf (c : BitVec 8) : wordOf (fieldsOf c) = c := by
  simp only [wordOf, fieldsOf]
  rw [BitVec.extractLsb'_append_extractLsb'_eq_extractLsb' (by rfl),
    BitVec.extractLsb'_append_extractLsb'_eq_extractLsb' (by rfl),
    BitVec.extractLsb'_append_extractLsb'_eq_extractLsb' (by rfl)]
  exact BitVec.extractLsb'_eq_self

/-- The fields of a word as numbers (R80). -/
theorem fieldsOf_toNat (c : BitVec 8) :
    (fieldsOf c).rsv.toNat = c.toNat / 64 ∧ (fieldsOf c).mode.toNat = c.toNat / 32 % 2 ∧
    (fieldsOf c).fmt.toNat = c.toNat / 8 % 4 ∧ (fieldsOf c).op.toNat = c.toNat % 8 := by
  have hc := c.isLt
  simp only [fieldsOf, BitVec.extractLsb'_toNat, Nat.shiftRight_eq_div_pow, Nat.reducePow, Nat.div_one, and_true]
  omega

/-! ### The decoder on fields -/

theorem Decoded.instr?_eq_some {d : Decoded} {i : Instr} : d.instr? = some i ↔ d = .ok i := by
  cases d <;> simp [Decoded.instr?]

theorem Decoded.instr?_eq_none {d : Decoded} : d.instr? = none ↔ ¬ ∃ i, d = .ok i := by
  cases d <;> simp [Decoded.instr?]

theorem decodeFields_fields (i : Instr) : decodeFields i.fields = .ok i := by
  cases i <;> rfl

/-- A legal pair's codes are the FMT and MODE it was read from (R82, R83). -/
theorem codes_of_pairOf {fmt : BitVec 2} {mode : BitVec 1} {p : Pair} (h : pairOf fmt mode = some p) :
    p.fmt.code = fmt ∧ p.mode.code = mode := by
  revert fmt mode p
  decide

theorem pairOf_eq_none {fmt : BitVec 2} {mode : BitVec 1} :
    pairOf fmt mode = none ↔ fmt = 3 ∨ (fmt = 1 ∧ mode = 0) := by
  revert fmt mode
  decide

theorem codecFields_of_pairOf {f : Fields} {p : Pair} (hrsv : f.rsv = 0) (hp : pairOf f.fmt f.mode = some p) :
    codecFields p f.op = f := by
  obtain ⟨hfmt, hmode⟩ := codes_of_pairOf hp
  rw [codecFields, hfmt, hmode, ← hrsv]

theorem unitFieldsOf_of_plain {f : Fields} (hrsv : f.rsv = 0) (hplain : ¬ (f.fmt ≠ 0 ∨ f.mode ≠ 0)) :
    unitFieldsOf f.op = f := by
  obtain ⟨hfmt, hmode⟩ : f.fmt = 0 ∧ f.mode = 0 := by simpa using hplain
  calc unitFieldsOf f.op = ⟨0, 0, 0, f.op⟩ := rfl
    _ = ⟨f.rsv, f.mode, f.fmt, f.op⟩ := by rw [hrsv, hfmt, hmode]

/-- The fields a command is decoded from are that command's: the operation code and the pair's codes leave no field
free (R81 to R84). -/
theorem fields_of_decodeFields {f : Fields} {i : Instr} (h : decodeFields f = .ok i) : i.fields = f := by
  unfold decodeFields at h
  split at h
  · cases h
  next hrsv =>
  replace hrsv := not_not.mp hrsv
  split at h
  · cases h
  next hop =>
  split at h
  next hunit =>
    split at h
    · cases h
    next hplain =>
    have hf := unitFieldsOf_of_plain hrsv hplain
    split_ifs at h with h4 h5 <;> cases h
    · rwa [h4] at hf
    · rwa [h5] at hf
    · have h6 : f.op = 6 := (hunit.resolve_left h4).resolve_left h5
      rwa [h6] at hf
  next hcodec =>
    split at h
    · cases h
    split at h
    · cases h
    next p hp =>
    have hf := codecFields_of_pairOf hrsv hp
    split_ifs at h with h1 h2 <;> cases h
    · rw [Instr.fields, Machine.kind_estimateOf]
      rwa [h1] at hf
    · rw [Instr.fields, Machine.kind_encodeOf]
      rwa [h2] at hf
    · have h3 : f.op = 3 := by bv_omega
      rw [Instr.fields, Machine.kind_decodeOf]
      rwa [h3] at hf

/-- The five checks of R86 as conditions on the fields, a unit command's and a codec command's apart. -/
theorem Fields.wf_iff (f : Fields) :
    f.wf = true ↔ f.rsv = 0 ∧ ¬ (f.op = 0 ∨ f.op = 7) ∧
      ((f.op = 4 ∨ f.op = 5 ∨ f.op = 6) → ¬ (f.fmt ≠ 0 ∨ f.mode ≠ 0)) ∧
      (¬ (f.op = 4 ∨ f.op = 5 ∨ f.op = 6) → ¬ (f.fmt = 3 ∨ (f.fmt = 1 ∧ f.mode = 0))) := by
  simp only [Fields.wf, Fields.rsvZero, Fields.opAssigned, Fields.unitPlain, Fields.fmtAssigned, Fields.rgbAllOnly,
    Fields.isUnit, Bool.and_eq_true, Bool.or_eq_true, Bool.not_eq_true', ← Bool.not_eq_true, beq_iff_eq, bne_iff_ne]
  tauto

theorem decodeFields_of_wf {f : Fields} (h : f.wf = true) : ∃ i, decodeFields f = .ok i := by
  obtain ⟨hrsv, hop, hunit, hcodec⟩ := f.wf_iff.mp h
  rw [decodeFields, if_neg (not_not.mpr hrsv), if_neg hop]
  by_cases hu : f.op = 4 ∨ f.op = 5 ∨ f.op = 6
  · rw [if_pos hu, if_neg (hunit hu)]
    split_ifs <;> exact ⟨_, rfl⟩
  · obtain ⟨p, hp⟩ := Option.ne_none_iff_exists'.mp (mt pairOf_eq_none.mp (hcodec hu))
    rw [if_neg hu, if_neg fun h3 => hcodec hu (.inl h3), hp]
    dsimp only
    split_ifs <;> exact ⟨_, rfl⟩

theorem Fields.wf_iff_decodeFields (f : Fields) : f.wf = true ↔ ∃ i, decodeFields f = .ok i :=
  ⟨decodeFields_of_wf, fun ⟨i, hi⟩ => fields_of_decodeFields hi ▸ i.fields_wf⟩

/-- Settles O4: legal fields pass every test of R86, and what decodes is some command's own fields, which are legal. -/
theorem wellFormedFieldsAreTheDecodableOnes : Obligations.WellFormedFieldsAreTheDecodableOnes := by
  unfold Obligations.WellFormedFieldsAreTheDecodableOnes
  exact Fields.wf_iff_decodeFields

/-! ### The decoder on words -/

theorem decode_encode (i : Instr) : decode (encode i) = .ok i := by
  rw [decode, fieldsOf_encode, decodeFields_fields]

theorem encode_of_decode {c : BitVec 8} {i : Instr} (h : decode c = .ok i) : encode i = c := by
  rw [encode, fields_of_decodeFields h, wordOf_fieldsOf]

/-- Settles O3. -/
theorem encodeAndDecodeAgree : Obligations.EncodeAndDecodeAgree := by
  unfold Obligations.EncodeAndDecodeAgree
  exact ⟨decode_encode, fun _ _ => encode_of_decode⟩

/-- The rows of the opcode map are the commands with their words (R87). -/
theorem mem_opcodeMap {c : BitVec 8} {i : Instr} : (c, i) ∈ Machine.opcodeMap ↔ decode c = .ok i := by
  constructor
  · have hrows : ∀ r ∈ Machine.opcodeMap, decode r.1 = .ok r.2 := by decide
    exact hrows (c, i)
  · intro h
    rw [← encode_of_decode h]
    cases i <;> decide

/-- Settles O1: the row that the search finds is the word's own, and a legal word has a row. -/
theorem decodeMatchesTheOpcodeMap : Obligations.DecodeMatchesTheOpcodeMap := by
  unfold Obligations.DecodeMatchesTheOpcodeMap
  intro c
  cases hfind : Machine.opcodeMap.find? fun r => r.1 == c with
  | none =>
    have hno : ¬ ∃ i, decode c = .ok i := fun ⟨i, hi⟩ =>
      List.find?_eq_none.mp hfind (c, i) (mem_opcodeMap.mpr hi) (beq_self_eq_true c)
    exact Decoded.instr?_eq_none.mpr hno
  | some r =>
    have hc : r.1 = c := by simpa using List.find?_some hfind
    have hr : decode c = .ok r.2 := hc ▸ mem_opcodeMap.mp (List.mem_of_find?_eq_some hfind)
    exact Decoded.instr?_eq_some.mpr hr

theorem decode_instr?_eq_none_iff (c : BitVec 8) : (decode c).instr? = none ↔ ¬ (fieldsOf c).wf = true := by
  rw [Decoded.instr?_eq_none, decode, ← Fields.wf_iff_decodeFields]

theorem exists_decode_iff {c : BitVec 8} : (∃ i, decode c = .ok i) ↔ ∃ r ∈ Machine.opcodeMap, r.1 = c :=
  ⟨fun ⟨i, hi⟩ => ⟨(c, i), mem_opcodeMap.mpr hi, rfl⟩, fun ⟨r, hr, hc⟩ => ⟨r.2, hc ▸ mem_opcodeMap.mp hr⟩⟩

/-- The numbers of the words that are not illegal are those of the opcode map's rows. -/
theorem legalNumbers_perm :
    ((List.range 256).filter fun n => !((decode (BitVec.ofNat 8 n)).instr? == none)).Perm
      (Machine.opcodeMap.map fun r => r.1.toNat) := by
  refine (List.perm_ext_iff_of_nodup (List.nodup_range.filter _) (by decide)).mpr fun n => ?_
  have hlegal : (!((decode (BitVec.ofNat 8 n)).instr? == none)) = true ↔
      ∃ r ∈ Machine.opcodeMap, r.1 = BitVec.ofNat 8 n := by
    rw [← exists_decode_iff, Bool.not_eq_true', beq_eq_false_iff_ne, Ne, Decoded.instr?_eq_none, not_not]
  rw [List.mem_filter, List.mem_range, List.mem_map, hlegal]
  constructor
  · rintro ⟨hn, r, hr, hc⟩
    exact ⟨r, hr, by rw [hc, BitVec.toNat_ofNat, Nat.mod_eq_of_lt hn]⟩
  · rintro ⟨r, hr, rfl⟩
    exact ⟨r.1.isLt, r, hr, by rw [BitVec.ofNat_toNat, BitVec.setWidth_eq]⟩

/-- Settles O2: a word is illegal when one of the checks of R86 fails on its fields, and 18 of the 256 words are not. -/
theorem illegalWordsAreTheOther238 : Obligations.IllegalWordsAreTheOther238 := by
  unfold Obligations.IllegalWordsAreTheOther238
  constructor
  · intro c
    obtain ⟨hrsv, hmode, hfmt, hop⟩ := fieldsOf_toNat c
    rw [decode_instr?_eq_none_iff, Fields.wf_iff]
    simp only [ne_eq, ← BitVec.toNat_inj, hrsv, hmode, hfmt, hop, BitVec.reduceToNat]
    omega
  · have hsum := List.length_eq_length_filter_add (l := List.range 256)
      fun n => (decode (BitVec.ofNat 8 n)).instr? == none
    rw [legalNumbers_perm.length_eq, List.length_range] at hsum
    have h18 : (Machine.opcodeMap.map fun r => r.1.toNat).length = 18 := rfl
    omega

end Sys2Proof
end

section
/-! SUPPORT. The assembler on a codec mnemonic (R90): the operation's name up to the first dot, then the words that name
the pair, with the mode tokens of R91 and the default modes of R92. -/

namespace Sys2Proof.Machine

/-- The pair that the words after a codec mnemonic's first dot name (R91, R92). -/
def pairNamed (text : List Char) : Option Pair :=
  match splitDots (text.map Char.toUpper) with
  | [f] => (fmtNamed f).bind fun f => pairOfNames f f.defaultMode
  | [f, m] => (fmtNamed f).bind fun f => (modeToken f m).bind (pairOfNames f)
  | _ => none

theorem splitDots_ne_nil (cs : List Char) : splitDots cs ≠ [] := by
  cases cs with
  | nil => simp [splitDots]
  | cons c cs =>
    rw [splitDots]
    split
    · simp
    · split <;> simp

theorem splitDots_append_dot {w : List Char} (hw : '.' ∉ w) (cs : List Char) :
    splitDots (w ++ '.' :: cs) = w :: splitDots cs := by
  induction w with
  | nil => simp [splitDots]
  | cons c w ih =>
    obtain ⟨hc, hw⟩ := List.ne_and_not_mem_of_not_mem_cons hw
    rw [List.cons_append, splitDots, if_neg hc.symm, ih hw]

/-- A mnemonic of a codec operation is the operation on the pair that the words after its first dot name. -/
theorem assemble_codec {o : List Char} {f : Pair → Instr} (hdot : '.' ∉ o.map Char.toUpper)
    (hname : ∀ p, codecNamed (o.map Char.toUpper) p = some (f p)) (text : List Char) :
    assemble (o ++ '.' :: text) = (pairNamed text).map f := by
  have hsplit : splitDots ((o ++ '.' :: text).map Char.toUpper) =
      o.map Char.toUpper :: splitDots (text.map Char.toUpper) := by
    rw [List.map_append, List.map_cons, ← splitDots_append_dot hdot]
    rfl
  rw [assemble, pairNamed, hsplit]
  match hwords : splitDots (text.map Char.toUpper) with
  | [] => exact absurd hwords (splitDots_ne_nil _)
  | [_] => simp only [hname, Option.map_eq_bind, Option.bind_assoc, Function.comp_def]
  | [_, _] => simp only [hname, Option.map_eq_bind, Option.bind_assoc, Function.comp_def]
  | _ :: _ :: _ :: _ => rfl

theorem assemble_codecName {op : String} {f : Pair → Instr}
    (h : (op, f) ∈ [("ESTIMATE.", estimateOf), ("ENCODE.", encodeOf), ("DECODE.", decodeOf)]) (text : String) :
    assemble (op ++ text).toList = (pairNamed text.toList).map f := by
  rw [String.toList_append]
  simp only [List.mem_cons, Prod.mk.injEq, List.not_mem_nil, or_false] at h
  obtain ⟨rfl, rfl⟩ | ⟨rfl, rfl⟩ | ⟨rfl, rfl⟩ := h
  · exact assemble_codec (o := "ESTIMATE".toList) (by decide) (fun _ => rfl) text.toList
  · exact assemble_codec (o := "ENCODE".toList) (by decide) (fun _ => rfl) text.toList
  · exact assemble_codec (o := "DECODE".toList) (by decide) (fun _ => rfl) text.toList

/-- The pairs of the mode tokens and of the default modes, and the three combinations that R91 rejects. -/
theorem pairNamed_tokens :
    pairNamed "GA".toList = some .gaAlpha ∧ pairNamed "RGB".toList = some .rgbAll ∧
    pairNamed "RGBA".toList = some .rgbaAlpha ∧
    pairNamed "GA.alpha".toList = some .gaAlpha ∧ pairNamed "GA.all".toList = some .gaAll ∧
    pairNamed "RGB.all".toList = some .rgbAll ∧
    pairNamed "RGBA.alpha".toList = some .rgbaAlpha ∧
    pairNamed "RGBA.all".toList = some .rgbaAll ∧ pairNamed "RGBA.each".toList = some .rgbaAll ∧
    pairNamed "RGB.alpha".toList = none ∧ pairNamed "GA.each".toList = none ∧
    pairNamed "RGB.each".toList = none := by decide

/-- Settles O5: the three operations read the words after their name alike. -/
theorem assemblerTokensAndDefaults : Obligations.AssemblerTokensAndDefaults := by
  unfold Obligations.AssemblerTokensAndDefaults
  intro op f h
  simp only [assemble_codecName h, pairNamed_tokens, Option.map_some, Option.map_none, and_self]

end Sys2Proof.Machine
end

section
/-! SUPPORT. The bit utilities (R110 to R115): `getBit` and `setBit` on either side of index 8, the number that `putBit`
is without truncation, and GETBIT and SETBIT as whole next states over the operands of ARG (R27). -/

namespace Sys2Proof.Machine

/-! ### The bit functions -/

theorem getBit_of_le (v : Byte) {k : Nat} (h : 8 ≤ k) : getBit v k = none := if_pos h

theorem getBit_of_lt (v : Byte) {k : Nat} (h : k < 8) : getBit v k = some (bit v k) := if_neg (Nat.not_le.mpr h)

theorem setBit_of_le (v : Byte) {k : Nat} (t : Bool) (h : 8 ≤ k) : setBit v k t = none := if_pos h

theorem setBit_of_lt (v : Byte) {k : Nat} (t : Bool) (h : k < 8) : setBit v k t = some (putBit v k t) :=
  if_neg (Nat.not_le.mpr h)

/-- Reading after setting, below index 8 (R114). -/
theorem getBit_putBit (v : Byte) {k j : Nat} (t : Bool) (hk : k < 8) (hj : j < 8) :
    getBit (putBit v k t) j = if j = k then some t else getBit v j := by
  rw [getBit_of_lt _ hj, getBit_of_lt _ hj, bit_putBit v t hk hj, apply_ite some]

/-- The bit that is taken off is in the byte, so the subtraction of R111 does not truncate. -/
theorem bit_mul_two_pow_le (v : Byte) (k : Nat) : (bit v k).toNat * 2 ^ k ≤ v.toNat := by
  calc (bit v k).toNat * 2 ^ k = v.toNat / 2 ^ k % 2 * 2 ^ k := by rw [bit_toNat]
    _ ≤ v.toNat / 2 ^ k * 2 ^ k := Nat.mul_le_mul_right _ (Nat.mod_le _ _)
    _ ≤ v.toNat := Nat.div_mul_le_self _ _

/-- The number of R111 is a byte: the bits around bit `k` leave room for it. -/
theorem forcedBit_lt (v : Byte) {k : Nat} (t : Bool) (hk : k < 8) :
    v.toNat - (bit v k).toNat * 2 ^ k + t.toNat * 2 ^ k < 2 ^ 8 := by
  have hv := v.isLt
  have ht := t.toNat_le
  rw [← bit_toNat]
  interval_cases k <;> omega

/-- `putBit` as the number of R111, which does not wrap. -/
theorem putBit_toNat (v : Byte) {k : Nat} (t : Bool) (hk : k < 8) :
    (putBit v k t).toNat = v.toNat - (bit v k).toNat * 2 ^ k + t.toNat * 2 ^ k := by
  rw [putBit, BitVec.toNat_ofNat, Nat.mod_eq_of_lt (forcedBit_lt v t hk)]

/-- Setting a bit to the value it has changes nothing (R114). -/
theorem putBit_bit (v : Byte) {k : Nat} (hk : k < 8) : putBit v k (bit v k) = v :=
  byte_ext fun j hj => by
    rw [bit_putBit v _ hk hj]
    split
    · next h => rw [h]
    · rfl

/-- Of two values set at one index the second stays (R114). -/
theorem putBit_putBit (v : Byte) {k : Nat} (s t : Bool) (hk : k < 8) : putBit (putBit v k s) k t = putBit v k t :=
  byte_ext fun j hj => by
    rw [bit_putBit _ t hk hj, bit_putBit v t hk hj, bit_putBit v s hk hj]
    split <;> rfl

/-- The low `n` bits of a byte sum to its remainder at `2 ^ n`. -/
theorem sum_getBit (v : Byte) {n : Nat} (hn : n ≤ 8) :
    ((List.range n).map fun i => if getBit v i = some true then 2 ^ i else 0).sum = v.toNat % 2 ^ n := by
  induction n with
  | zero => simp [Nat.mod_one]
  | succ n ih =>
    have hbit : (if getBit v n = some true then 2 ^ n else 0) = 2 ^ n * (bit v n).toNat := by
      rw [getBit_of_lt v (by omega)]
      cases bit v n <;> simp
    rw [List.range_succ, List.map_append, List.sum_append, ih (by omega), List.map_singleton, List.sum_singleton, hbit,
      ← bit_toNat, Nat.mod_pow_succ]

/-- Settles O6: the two functions are `bit` and `putBit` below index 8, whose number does not wrap. -/
theorem bitFunctionsByIndex : Obligations.BitFunctionsByIndex := by
  unfold Obligations.BitFunctionsByIndex
  intro v k t
  refine ⟨fun h => ⟨getBit_of_le v h, setBit_of_le v t h⟩, fun h => ⟨getBit_of_lt v h, putBit v k t,
    setBit_of_lt v t h, fun j hj => getBit_putBit v t h hj, ?_⟩⟩
  rw [putBit_toNat v t h, bit_toNat]
  have := bit_mul_two_pow_le v k
  omega

/-- Settles O7: two bytes are equal where their eight bits are, and a byte is the sum of its bits. -/
theorem bitUtilityLaws : Obligations.BitUtilityLaws := by
  unfold Obligations.BitUtilityLaws
  intro v k j s t hk hj
  have hzero : getBit v 0 = some (parity v) := by rw [getBit_of_lt v (by decide), bit_zero]
  refine ⟨putBit v k t, setBit_of_lt v t hk, ?_, fun hne => ?_, fun b hb => ?_, fun u hu => ?_, ?_, hzero, hzero⟩
  · rw [getBit_putBit v t hk hk, if_pos rfl]
  · rw [getBit_putBit v t hk hj, if_neg hne]
  · rw [getBit_of_lt v hk, Option.some_inj] at hb
    rw [← hb, setBit_of_lt v _ hk, putBit_bit v hk]
  · rw [setBit_of_lt v s hk, Option.some_inj] at hu
    rw [← hu, setBit_of_lt _ t hk, putBit_putBit v s t hk]
  · rw [sum_getBit v (Nat.le_refl 8), Nat.mod_eq_of_lt v.isLt]

/-! ### The operands of ARG as numbers (R27) -/

theorem Descriptor.argByte_toNat (d : Descriptor) : d.argByte.toNat = d.arg.toNat % 256 := by
  rw [argByte, BitVec.extractLsb'_toNat, Nat.shiftRight_zero]

theorem Descriptor.argIndex_eq (d : Descriptor) : d.argIndex = d.arg.toNat / 256 % 256 := by
  rw [argIndex, BitVec.extractLsb'_toNat, Nat.shiftRight_eq_div_pow]

theorem Descriptor.argValue_toNat (d : Descriptor) : d.argValue.toNat = d.arg.toNat / 65536 % 2 :=
  Nat.toNat_testBit d.arg.toNat 16

/-! ### GETBIT and SETBIT -/

/-- Completion with a number right after START is the state the obligations call `answered`. -/
theorem State.completeWith_accept (s : State) (n : Nat) : s.accept.completeWith n = answered s n := by
  rw [State.completeWith, statusDone_true]
  rfl

theorem State.raiseFault_accept (s : State) (c : Cause) : s.accept.raiseFault c = faulted s (statusFault c) := rfl

/-- GETBIT and SETBIT check the index at START, alike (R233). -/
theorem startCheck_index {k : Kind} (hk : k = .getbit ∨ k = .setbit) (d : Descriptor) (c : Caps) :
    startCheck k d c = if 8 ≤ d.argIndex then some .bitIndexRange else none := by
  rcases hk with rfl | rfl <;> rfl

theorem exec_of_index_lt {i : Instr} {s : State} (hi : i.kind = .getbit ∨ i.kind = .setbit)
    (h : s.desc.argIndex < 8) : exec i s = .next (bodyOf i.kind s.desc s.accept) :=
  exec_of_check_none ((startCheck_index hi _ _).trans (if_neg (Nat.not_le.mpr h)))

theorem exec_of_index_ge {i : Instr} {s : State} (hi : i.kind = .getbit ∨ i.kind = .setbit)
    (h : 8 ≤ s.desc.argIndex) : exec i s = .next (faulted s 0x33) := by
  rw [exec_of_check_some ((startCheck_index hi _ _).trans (if_pos h)), State.raiseFault_accept, statusFault_eq]

theorem exec_getbit_of_lt {s : State} (h : s.desc.argIndex < 8) :
    exec .getbit s = .next (answered s (bit s.desc.argByte s.desc.argIndex).toNat) := by
  rw [exec_of_index_lt (.inl rfl) h, Instr.kind, bodyOf, getbitBody_of_lt h, State.completeWith_accept]

theorem exec_setbit_of_lt {s : State} (h : s.desc.argIndex < 8) :
    exec .setbit s = .next (answered s (putBit s.desc.argByte s.desc.argIndex s.desc.argValue).toNat) := by
  rw [exec_of_index_lt (.inr rfl) h, Instr.kind, bodyOf, setbitBody_of_lt h, State.completeWith_accept]

/-- Settles O8: the two outcomes of GETBIT, with the operands of ARG as numbers. -/
theorem getbitReturnsTheIndexedBit : Obligations.GetbitReturnsTheIndexedBit := by
  unfold Obligations.GetbitReturnsTheIndexedBit
  intro s
  simp only [← Descriptor.argByte_toNat, ← Descriptor.argIndex_eq, bit_toNat]
  exact ⟨exec_getbit_of_lt, exec_of_index_ge (.inl rfl)⟩

/-- Settles O9: the two outcomes of SETBIT, whose number in RESULT does not wrap. -/
theorem setbitForcesTheIndexedBit : Obligations.SetbitForcesTheIndexedBit := by
  unfold Obligations.SetbitForcesTheIndexedBit
  intro s
  simp only [← Descriptor.argByte_toNat, ← Descriptor.argIndex_eq, ← Descriptor.argValue_toNat, bit_toNat]
  refine ⟨fun h => ?_, exec_of_index_ge (.inr rfl)⟩
  rw [← putBit_toNat _ _ h]
  exact exec_setbit_of_lt h

end Sys2Proof.Machine
end

section
/-! SUPPORT. Parity fixup (R121 to R128): fixup case by case with the draws it takes, FIXUP as a whole next state (R126), and
ENCODE on an image whose slots have the parities of the payload already (R156). -/

namespace Sys2Proof.Machine

/-! ### fixup, case by case -/

/-- A bit is determined by its number. -/
theorem bool_toNat_injective : Function.Injective Bool.toNat := by decide

theorem parity_eq_iff {v : Byte} {t : Bool} : parity v = t ↔ v.toNat % 2 = t.toNat := by
  rw [parity_toNat, bool_toNat_injective.eq_iff]

theorem interiorMismatch_iff {v : Byte} {t : Bool} :
    interiorMismatch v t = true ↔ v.toNat % 2 ≠ t.toNat ∧ v ≠ 0 ∧ v ≠ 255 := by
  simp only [interiorMismatch, Bool.and_eq_true, bne_iff_ne, ne_eq, parity_eq_iff, and_assoc]

/-- A value of the right parity is kept, without a draw (R121, case 1). -/
theorem fixup_of_parity {v : Byte} {t : Bool} (r : Source) (h : parity v = t) : fixup v t r = (v, r) := if_pos h

/-- At the lower boundary fixup moves up, without a draw (R121, case 2). -/
theorem fixup_zero (r : Source) : fixup 0 true r = (1, r) := rfl

/-- At the upper boundary fixup moves down, without a draw (R121, case 3). -/
theorem fixup_max (r : Source) : fixup 255 false r = (254, r) := rfl

theorem fixupValue_of_interiorMismatch {v : Byte} {t : Bool} (d : Bool) (h : interiorMismatch v t = true) :
    fixupValue v t d = if d then v + 1 else v - 1 := by
  obtain ⟨hparity, hzero, hmax⟩ := interiorMismatch_iff.mp h
  rw [fixupValue, if_neg (mt parity_eq_iff.mp hparity), if_neg hzero, if_neg hmax]

/-- An interior value of the wrong parity moves by the one draw it takes, and neither the sum nor the difference wraps
(R121, case 4; R128). -/
theorem fixup_of_interiorMismatch {v : Byte} {t : Bool} (r : Source) (h : interiorMismatch v t = true) :
    (fixup v t r).1.toNat = (if r.answer 0 then v.toNat + 1 else v.toNat - 1) ∧ (fixup v t r).2 = r.skip 1 := by
  obtain ⟨-, hzero, hmax⟩ := interiorMismatch_iff.mp h
  rw [fixup_eq, fixupValue_of_interiorMismatch _ h, h]
  refine ⟨?_, rfl⟩
  cases r.answer 0 with
  | true =>
    change (v + 1).toNat = v.toNat + 1
    bv_omega
  | false =>
    change (v - 1).toNat = v.toNat - 1
    bv_omega

/-- Settles O10, row by row. In the two interior rows one boundary is excluded by the row, the other by its parity. -/
theorem fixupCaseTable : Obligations.FixupCaseTable := by
  unfold Obligations.FixupCaseTable
  intro v t r
  refine ⟨?_, ?_, ?_, ?_, ?_, ?_⟩
  · rintro hv rfl
    exact fixup_of_parity r (parity_eq_iff.mpr hv)
  · rintro hv rfl
    exact fixup_of_parity r (parity_eq_iff.mpr hv)
  · rintro rfl rfl
    exact fixup_zero r
  · rintro rfl rfl
    exact fixup_max r
  · rintro hv hzero rfl
    have hmax : v ≠ 255 := by rintro rfl; cases hv
    exact fixup_of_interiorMismatch r (interiorMismatch_iff.mpr ⟨by rw [hv]; decide, hzero, hmax⟩)
  · rintro hv hmax rfl
    have hzero : v ≠ 0 := by rintro rfl; cases hv
    exact fixup_of_interiorMismatch r (interiorMismatch_iff.mpr ⟨by rw [hv]; decide, hzero, hmax⟩)

/-! ### The properties of fixup -/

/-- fixup gives the wanted parity, whatever it draws (R127 (a)). -/
theorem fixup_parity (v : Byte) (t : Bool) (r : Source) : parity (fixup v t r).1 = t := by
  rw [fixup_eq]
  exact fixupValue_parity v t _

/-- fixup keeps exactly the values of the right parity (R127 (b)). -/
theorem fixup_fst_eq_iff (v : Byte) (t : Bool) (r : Source) : (fixup v t r).1 = v ↔ parity v = t := by
  constructor
  · intro h
    rw [← h]
    exact fixup_parity v t r
  · intro h
    rw [fixup_of_parity r h]

/-- fixup moves a value by at most 1 (R127 (b)). -/
theorem fixup_near (v : Byte) (t : Bool) (r : Source) :
    (fixup v t r).1.toNat ≤ v.toNat + 1 ∧ v.toNat ≤ (fixup v t r).1.toNat + 1 := by
  rw [fixup_eq]
  exact fixupValue_near v t _

/-- Settles O11, property by property; (f) is an interior value that the draw moves up across all eight bits. -/
theorem fixupProperties : Obligations.FixupProperties := by
  unfold Obligations.FixupProperties
  constructor
  · intro v t r r'
    obtain ⟨hup, hdown⟩ := fixup_near v t r
    refine ⟨parity_eq_iff.mp (fixup_parity v t r), hup, hdown, (fixup_fst_eq_iff v t r).trans parity_eq_iff,
      Nat.le_of_lt_succ (fixup v t r).1.isLt, ?_, ?_, fixup_of_parity r' (fixup_parity v t r)⟩
    · rintro rfl rfl
      rw [fixup_zero]
    · rintro rfl rfl
      rw [fixup_max]
  · intro r hr
    have hmoved : (fixup 127 false r).1 = 128 := by
      rw [fixup_eq, hr]
      rfl
    exact ⟨hmoved, by decide⟩

/-! ### FIXUP -/

/-- FIXUP checks nothing and answers fixup of its two operands of ARG (R126, R233). -/
theorem exec_fixup (s : State) :
    exec .fixup s = .next { answered s (fixup s.desc.argByte s.desc.argValue s.rnd).1.toNat with
      rnd := (fixup s.desc.argByte s.desc.argValue s.rnd).2 } := by
  rw [exec_of_check_none rfl, Instr.kind, bodyOf, fixupBody, State.completeWith, statusDone_true]
  rfl

/-- Settles O12: `v` and `t` are the operands of ARG, which their numbers determine. -/
theorem fixupCommandAdjustsParity : Obligations.FixupCommandAdjustsParity := by
  unfold Obligations.FixupCommandAdjustsParity
  intro s v t hv ht
  obtain rfl : v = s.desc.argByte := BitVec.eq_of_toNat_eq (hv.trans s.desc.argByte_toNat.symm)
  obtain rfl : t = s.desc.argValue := bool_toNat_injective (ht.trans s.desc.argValue_toNat.symm)
  exact exec_fixup s

/-! ### ENCODE on slots that have the right parity -/

/-- The first `k` slots have the parities of their payload bits. -/
def slotsCarryPayload (p : Pair) (k : Nat) (s : State) : Prop :=
  ∀ j, j < k → parity (slotValue p s j) = slotBit s j

/-- The pass leaves its slots with the parities of the payload (R153). -/
theorem slotsCarryPayload_encodeSlots (p : Pair) (k : Nat) (s : State) :
    slotsCarryPayload p k (encodeSlots p k s) := by
  intro j hj
  rw [slotValue, encodeSlots_read_slot p s hj, fixupValue_parity, slotBit, slotBit, encodeSlots_read_pay]

/-- Slots that carry the payload take no draw (R157). -/
theorem drawsBefore_of_carry {p : Pair} {k : Nat} {s : State} (h : slotsCarryPayload p k s) :
    drawsBefore p s k = 0 := by
  induction k with
  | zero => rfl
  | succ k ih =>
    rw [drawsBefore, ih fun j hj => h j (Nat.lt_succ_of_lt hj),
      interiorMismatch_of_parity (h k (Nat.lt_succ_self k))]
    rfl

/-- The pass leaves the source where it is when its slots carry the payload already (R156). -/
theorem encodeSlots_rnd_of_carry {p : Pair} {k : Nat} {s : State} (h : slotsCarryPayload p k s) :
    (encodeSlots p k s).rnd = s.rnd := by
  rw [encodeSlots_rnd, drawsBefore_of_carry h, Source.skip_zero]

/-- The pass changes no byte when its slots carry the payload already (R156). -/
theorem encodeSlots_read_of_carry {p : Pair} {k : Nat} {s : State} (h : slotsCarryPayload p k s) (S : Space) (a : Nat) :
    (encodeSlots p k s).read S a = s.read S a := by
  cases S with
  | pay => exact encodeSlots_read_pay p k s a
  | out => exact encodeSlots_read_out p k s a
  | pix =>
    by_cases hslot : ∃ j, j < k ∧ slotAddr p j = a
    · obtain ⟨j, hj, rfl⟩ := hslot
      rw [encodeSlots_read_slot p s hj, fixupValue_of_parity _ (h j hj), slotValue]
    · exact encodeSlots_read_other p s fun j hj ha => hslot ⟨j, hj, ha⟩

/-- Whether slots carry the payload is a matter of what PIX and PAY read. -/
theorem slotsCarryPayload_congr {p : Pair} {k : Nat} {s t : State} (hr : ∀ S a, t.read S a = s.read S a)
    (h : slotsCarryPayload p k s) : slotsCarryPayload p k t := by
  intro j hj
  rw [slotValue, slotBit, hr, hr]
  exact h j hj

/-- ENCODE on slots that carry the payload already completes with the source and every byte as they were (R156). -/
theorem exec_encodeOf_of_carry {p : Pair} {s : State} (hfits : EncodeFits p s)
    (h : slotsCarryPayload p (8 * nEnc p s.desc) s) :
    ∃ u, exec (encodeOf p) s = .next u ∧ u.rnd = s.rnd ∧ u.status = 0x02 ∧ ∀ S a, u.read S a = s.read S a :=
  ⟨_, exec_encodeOf_of_fits hfits, encodeSlots_rnd_of_carry h, statusDone_false, fun S a => by
    rw [State.complete_read, State.accept_read, encodeSlots_read_of_carry h]⟩

/-- An ENCODE whose descriptor fits leaves a state in which it fits again and its slots carry the payload (R153). -/
theorem exec_encodeOf_leaves_carry {p : Pair} {s t : State} (hfits : EncodeFits p s)
    (ht : exec (encodeOf p) s = .next t) : EncodeFits p t ∧ slotsCarryPayload p (8 * nEnc p t.desc) t := by
  rw [exec_encodeOf_of_fits hfits] at ht
  cases ht
  obtain ⟨hdesc, -, -, -, -, -, -, -, -, hcaps⟩ := encodeSlots_frame p (8 * nEnc p s.desc) s
  constructor
  · simpa [EncodeFits, hdesc, hcaps] using hfits
  · rw [State.complete_desc, State.accept_desc, hdesc]
    exact slotsCarryPayload_congr (fun S a => by rw [State.complete_read, State.accept_read])
      (slotsCarryPayload_encodeSlots p _ s)

/-- Settles O23: the first ENCODE leaves slots that carry the payload, whatever the source. -/
theorem encodeRepeatedChangesNothing : Obligations.EncodeRepeatedChangesNothing := by
  unfold Obligations.EncodeRepeatedChangesNothing
  intro p s t r hfits ht
  obtain ⟨hfits', hcarry⟩ := exec_encodeOf_leaves_carry hfits ht
  obtain ⟨u, hu, hrnd, hstatus, hread⟩ := exec_encodeOf_of_carry (s := { t with rnd := r }) hfits'
    (slotsCarryPayload_congr (State.withRnd_read t r) hcarry)
  exact ⟨u, hu, hrnd, hstatus, fun S a => (hread S a).trans (State.withRnd_read t r S a)⟩

end Sys2Proof.Machine
end

section
/-! SUPPORT. The contract of the codec commands: ESTIMATE answers the capacity (R144, R145), ENCODE adjusts its slots by fixup
with one draw for each interior mismatch (R146, R147, R153 to R157), DECODE writes the bytes that the slot parities spell
(R149), and the two together give the payload back (R152). -/

namespace Sys2Proof.Machine

/-! ### ESTIMATE -/

/-- Where a group is one payload byte, the capacity is the number of whole groups (R144). -/
theorem capacity_of_byte_group {p : Pair} (h : groupBytes p = 1) (P : Nat) : capacity p P = P / groupPixels p := by
  rw [capacity, h, Nat.one_mul]

/-- ESTIMATE checks nothing and answers the capacity (R145, R233). -/
theorem exec_estimateOf (p : Pair) (s : State) :
    exec (estimateOf p) s = .next (answered s (capacity p s.desc.pixels)) := by
  have hc : startCheck (estimateOf p).kind s.desc s.caps = none := by
    rw [kind_estimateOf]
    rfl
  rw [exec_of_check_none hc, kind_estimateOf, bodyOf, State.completeWith_accept]

/-- Settles O16: in four pairs a group is one byte, in RGB.ALL it is three. -/
theorem estimateReturnsTheCapacity : Obligations.EstimateReturnsTheCapacity := by
  unfold Obligations.EstimateReturnsTheCapacity
  rintro s P rfl
  have hbyte : ∀ p, groupBytes p = 1 →
      exec (estimateOf p) s = .next (answered s (s.desc.pixels / groupPixels p)) := fun p h => by
    rw [exec_estimateOf, capacity_of_byte_group h]
  refine ⟨hbyte .gaAlpha rfl, hbyte .gaAll rfl, exec_estimateOf .rgbAll s, hbyte .rgbaAlpha rfl, hbyte .rgbaAll rfl,
    capacity_lt .rgbAll s.desc, ?_⟩
  have hcap := capacity_lt .rgbaAll s.desc
  rwa [capacity_of_byte_group rfl] at hcap

/-! ### The slots of ENCODE, by byte and bit -/

/-- The payload bit of slot `8 b + i` is bit `i` of byte `b`. -/
theorem slotBit_of_byte (s : State) (b : Nat) {i : Nat} (hi : i < 8) :
    slotBit s (8 * b + i) = bit (s.read .pay b) i := by
  have h1 : (8 * b + i) / 8 = b := by omega
  have h2 : (8 * b + i) % 8 = i := by omega
  rw [slotBit, h1, h2]

/-- A slot of the first `n` bytes holds fixup of its value at START, for its payload bit and with its own draw (R147). -/
theorem encodeSlots_read_addr (p : Pair) (s : State) {n b i : Nat} (hb : b < n) (hi : i < 8) :
    (encodeSlots p (8 * n) s).read .pix (addr p b i) =
      (fixup (s.read .pix (addr p b i)) (bit (s.read .pay b) i) (s.rnd.skip (drawsBefore p s (8 * b + i)))).1 := by
  rw [← slotAddr_of_byte p b hi, encodeSlots_read_slot p s (by omega), fixup_eq, Source.answer_skip, Nat.add_zero,
    slotBit_of_byte s b hi, slotValue]

/-- A byte of PIX that is no `addr(b, i)` of the first `n` bytes is kept (R154). -/
theorem encodeSlots_read_no_addr (p : Pair) (s : State) {n a : Nat} (h : ∀ b i, b < n → i < 8 → a ≠ addr p b i) :
    (encodeSlots p (8 * n) s).read .pix a = s.read .pix a :=
  encodeSlots_read_other p s fun j hj ha => h (j / 8) (j % 8) (by omega) (by omega) ha.symm

/-- Settles O17: ENCODE is one pass over the slots of its `n_enc` bytes. -/
theorem encodeAdjustsEverySlotInOrder : Obligations.EncodeAdjustsEverySlotInOrder := by
  unfold Obligations.EncodeAdjustsEverySlotInOrder
  intro p s hfits
  obtain ⟨hdesc, -, -, -, -, -, hscript, hseen, hresets, hcaps⟩ := encodeSlots_frame p (8 * nEnc p s.desc) s
  refine ⟨_, exec_encodeOf_of_fits hfits, statusDone_false, rfl, rfl, ?_⟩
  simp only [State.complete_read, State.accept_read]
  exact ⟨fun b i => encodeSlots_read_addr p s, fun a => encodeSlots_read_no_addr p s, encodeSlots_rnd p _ s,
    encodeSlots_read_pay p _ s, encodeSlots_read_out p _ s, hdesc, hscript, hseen, hresets, hcaps⟩

/-! ### What ENCODE does to a byte -/

/-- Settles O18: every slot holds an answer of fixup, whose parity is the bit asked for. -/
theorem encodeMakesParitiesThePayload : Obligations.EncodeMakesParitiesThePayload := by
  unfold Obligations.EncodeMakesParitiesThePayload
  intro p s hfits
  obtain ⟨t, ht, -, -, -, hslot, -⟩ := encodeAdjustsEverySlotInOrder p s hfits
  refine ⟨t, ht, fun b i hb hi => ?_⟩
  rw [hslot b i hb hi, bit_toNat]
  exact parity_eq_iff.mp (fixup_parity _ _ _)

/-- Settles O19: a byte of PIX is a slot, which fixup moves by at most 1, or is kept. -/
theorem encodePerturbsByAtMostOne : Obligations.EncodePerturbsByAtMostOne := by
  unfold Obligations.EncodePerturbsByAtMostOne
  intro p s hfits
  obtain ⟨t, ht, -, -, -, hslot, hother, -⟩ := encodeAdjustsEverySlotInOrder p s hfits
  have hkept : ∀ a, (¬ ∃ b i, b < nEnc p s.desc ∧ i < 8 ∧ a = addr p b i) → t.read .pix a = s.read .pix a :=
    fun a hno => hother a fun b i hb hi ha => hno ⟨b, i, hb, hi, ha⟩
  refine ⟨t, ht, fun a => ?_, hkept, fun b i hb hi hparity => ?_⟩
  · rw [← and_assoc]
    refine ⟨?_, Nat.le_of_lt_succ (t.read .pix a).isLt⟩
    by_cases ha : ∃ b i, b < nEnc p s.desc ∧ i < 8 ∧ a = addr p b i
    · obtain ⟨b, i, hb, hi, rfl⟩ := ha
      rw [hslot b i hb hi]
      exact fixup_near _ _ _
    · rw [hkept a ha]
      exact ⟨Nat.le_succ _, Nat.le_succ _⟩
  · rw [bit_toNat] at hparity
    rw [hslot b i hb hi, fixup_of_parity _ (parity_eq_iff.mpr hparity)]

/-! ### The draws of ENCODE -/

/-- An interior mismatch by its numbers, as R157 has it. -/
theorem interiorMismatch_eq_decide (v : Byte) (t : Bool) :
    interiorMismatch v t = decide (v.toNat % 2 ≠ t.toNat ∧ 1 ≤ v.toNat ∧ v.toNat ≤ 254) := by
  have hbounds : v ≠ 0 ∧ v ≠ 255 ↔ 1 ≤ v.toNat ∧ v.toNat ≤ 254 := by
    constructor
    · rintro ⟨hzero, hmax⟩
      bv_omega
    · rintro ⟨hlow, hhigh⟩
      bv_omega
  rw [Bool.eq_iff_iff, interiorMismatch_iff, hbounds, decide_eq_true_iff]

/-- The draws before slot `k` are the interior mismatches among the slots before it (R157). -/
theorem drawsBefore_eq_length_filter (p : Pair) (s : State) (k : Nat) :
    drawsBefore p s k =
      ((List.range k).filter fun j => interiorMismatch (slotValue p s j) (slotBit s j)).length := by
  induction k with
  | zero => rfl
  | succ k ih =>
    rw [drawsBefore, ih, List.range_succ, List.filter_append, List.length_append]
    cases h : interiorMismatch (slotValue p s k) (slotBit s k) <;> simp [h]

/-- At most one draw for each slot (R157). -/
theorem drawsBefore_le (p : Pair) (s : State) (k : Nat) : drawsBefore p s k ≤ k := by
  rw [drawsBefore_eq_length_filter]
  exact (List.length_filter_le _ _).trans_eq List.length_range

/-- Settles O20: the draws before the end of the pass, counted by the values at START. -/
theorem encodeDrawsOncePerInteriorMismatch : Obligations.EncodeDrawsOncePerInteriorMismatch := by
  unfold Obligations.EncodeDrawsOncePerInteriorMismatch
  intro p s hfits
  obtain ⟨t, ht, -, -, -, -, -, hrnd, -⟩ := encodeAdjustsEverySlotInOrder p s hfits
  refine ⟨t, _, ht, hrnd, drawsBefore_le p s _, ?_⟩
  rw [drawsBefore_eq_length_filter]
  simp only [interiorMismatch_eq_decide, slotValue, slotAddr, slotBit, ← bit_toNat]

/-! ### A payload beyond the capacity -/

/-- Settles O21: ENCODE looks at PLEN through `n_enc` only, and the capacity fits PLEN. -/
theorem encodeDropsWhatDoesNotFit : Obligations.EncodeDropsWhatDoesNotFit := by
  unfold Obligations.EncodeDropsWhatDoesNotFit
  intro p s hfits hcap
  have hn : nEnc p s.desc = capacity p s.desc.pixels := Nat.min_eq_right hcap
  refine ⟨hn, _, exec_encodeOf_of_fits hfits, ?_⟩
  generalize hd : { s.desc with plen := BitVec.ofNat 64 (capacity p s.desc.pixels) } = d
  have hpixels : d.pixels = s.desc.pixels := by rw [← hd]; rfl
  have hplen : d.plen.toNat = capacity p s.desc.pixels := by
    rw [← hd, BitVec.toNat_ofNat, Nat.mod_eq_of_lt (capacity_lt p s.desc)]
  have hn' : nEnc p d = nEnc p s.desc := by rw [nEnc, hpixels, hplen, Nat.min_self, hn]
  have hfits' : d.pixels * nch p ≤ s.caps.pix ∧ d.plen.toNat ≤ s.caps.pay := by
    rw [hpixels, hplen]
    exact ⟨hfits.1, hcap.trans hfits.2⟩
  rw [exec_encodeOf_of_fits (s := { s with desc := d }) hfits', hn', encodeSlots_congr p _ s d s.run]
  rfl

/-! ### DECODE -/

/-- A decoded byte as a number: the sum of its slots' parities, each at its bit (R149). -/
theorem decodedByte_toNat (s : State) (p : Pair) (b : Nat) :
    (decodedByte s p b).toNat =
      ((List.range 8).map fun i => (s.read .pix (addr p b i)).toNat % 2 * 2 ^ i).sum := by
  have hbit : ∀ i ∈ List.range 8, (if getBit (decodedByte s p b) i = some true then 2 ^ i else 0) =
      (s.read .pix (addr p b i)).toNat % 2 * 2 ^ i := by
    intro i hi
    have hi : i < 8 := List.mem_range.mp hi
    rw [getBit_of_lt _ hi, bit_decodedByte s p b hi, parity_toNat]
    cases parity (s.read .pix (addr p b i)) <;> simp
  rw [← List.map_congr_left hbit, sum_getBit _ (Nat.le_refl 8), Nat.mod_eq_of_lt (decodedByte s p b).isLt]

/-- Settles O24: DECODE is the pass over its `n_dec` output bytes. -/
theorem decodeWritesTheParities : Obligations.DecodeWritesTheParities := by
  unfold Obligations.DecodeWritesTheParities
  intro p s hfits hlen
  obtain ⟨hdesc, -, -, -, -, -, hrnd, hscript, hseen, hresets, hcaps⟩ := decodeBytes_frame p (nDec p s.desc) s
  refine ⟨_, exec_decodeOf_of_fits hfits hlen, statusDone_false, rfl, rfl, ?_⟩
  simp only [State.complete_read, State.accept_read]
  refine ⟨fun b hb => ?_, fun b hb => ?_, decodeBytes_read_pix p _ s, decodeBytes_read_pay p _ s, hrnd, hdesc, hscript,
    hseen, hresets, hcaps⟩
  · rw [decodeBytes_read_out, if_pos hb, decodedByte_toNat]
  · rw [decodeBytes_read_out, if_neg (Nat.not_lt.mpr hb)]

/-- Settles O25: ENCODE puts each payload bit into a parity, and DECODE reads each bit from that parity. -/
theorem decodeRecoversTheEncodedPayload : Obligations.DecodeRecoversTheEncodedPayload := by
  unfold Obligations.DecodeRecoversTheEncodedPayload
  intro p s t v hfits hplen ht hfits' hlen holen hcap hslots
  obtain ⟨t', ht', hparity⟩ := encodeMakesParitiesThePayload p s hfits
  obtain rfl : t = t' := Host.Outcome.next.inj (ht.symm.trans ht')
  refine ⟨_, exec_decodeOf_of_fits hfits' holen, statusDone_false, fun b hb => ?_⟩
  have hdec : b < nDec p v.desc := lt_min (hlen ▸ hb) (hb.trans_le (hlen ▸ hcap))
  rw [State.complete_read, State.accept_read, decodeBytes_read_out, if_pos hdec]
  refine byte_ext fun i hi => ?_
  rw [bit_decodedByte v p b hi, hslots b i hb hi, parity_eq_iff, ← bit_toNat]
  exact hparity b i (lt_min hb (hb.trans_le hplen)) hi

end Sys2Proof.Machine
end

section
/-! SUPPORT. A group of payload bytes lies on a group of pixels (R140, R141, R143): the slots of group `g` are the slots of
the pair's table, with the pixels counted from the group's first. -/

namespace Sys2Proof.Machine

/-- Group and offset of a slot's payload byte: byte `k div 8` of group `g` (R141). -/
theorem group_of_slot (p : Pair) (g : Nat) {k : Nat} (hk : k < 8 * groupBytes p) :
    (groupBytes p * g + k / 8) / groupBytes p = g ∧ (groupBytes p * g + k / 8) % groupBytes p = k / 8 := by
  have hb : k / 8 < groupBytes p := Nat.div_lt_of_lt_mul hk
  constructor
  · rw [Nat.mul_add_div (Nat.zero_lt_of_lt hb), Nat.div_eq_of_lt hb, Nat.add_zero]
  · rw [Nat.mul_add_mod, Nat.mod_eq_of_lt hb]

theorem slotPixel_of_group (p : Pair) (g : Nat) {k : Nat} (hk : k < 8 * groupBytes p) :
    slotPixel p (groupBytes p * g + k / 8) (k % 8) = groupPixels p * g + (slot p k).1 := by
  obtain ⟨hdiv, hmod⟩ := group_of_slot p g hk
  rw [slotPixel, hdiv, hmod, Nat.div_add_mod, Nat.mul_comm]

theorem slotChannel_of_group (p : Pair) (g : Nat) {k : Nat} (hk : k < 8 * groupBytes p) :
    slotChannel p (groupBytes p * g + k / 8) (k % 8) = (slot p k).2 := by
  rw [slotChannel, (group_of_slot p g hk).2, Nat.div_add_mod]

/-- The address of a slot counted from the group's first slot. -/
theorem addr_of_group (p : Pair) (g k : Nat) :
    addr p (groupBytes p * g + k / 8) (k % 8) =
      (8 * groupBytes p * g + k) * (slotStride p).1 + (slotStride p).2 := by
  rw [addr_eq_stride, Nat.mul_add, Nat.add_assoc, Nat.div_add_mod, Nat.mul_assoc]

/-- RGB.ALL's slots in the document's order: pixel by pixel, and in a pixel channel 0, 1, 2 (R193). -/
theorem slot_rgbAll_enumerated :
    (List.range 24).map (slot .rgbAll) =
      [(0, 0), (0, 1), (0, 2), (1, 0), (1, 1), (1, 2), (2, 0), (2, 1),
       (2, 2), (3, 0), (3, 1), (3, 2), (4, 0), (4, 1), (4, 2), (5, 0),
       (5, 1), (5, 2), (6, 0), (6, 1), (6, 2), (7, 0), (7, 1), (7, 2)] := by decide

/-- Settles O14: the group's slots are the 24 of the table, moved by the group's first pixel. -/
theorem rgbGroupVisitsTheEnumeratedChannels : Obligations.RgbGroupVisitsTheEnumeratedChannels := by
  unfold Obligations.RgbGroupVisitsTheEnumeratedChannels
  intro g
  refine ⟨?_, fun k _ => ?_⟩
  · rw [← slot_rgbAll_enumerated, List.map_map]
    refine List.map_congr_left fun k hk => ?_
    have hk : k < 8 * groupBytes .rgbAll := List.mem_range.mp hk
    exact Prod.ext (slotPixel_of_group .rgbAll g hk) (slotChannel_of_group .rgbAll g hk)
  · exact (addr_of_group .rgbAll g k).trans (Nat.mul_one _)

end Sys2Proof.Machine
end

section
/-! SUPPORT. Command control: how every command ends and which faults it can raise (R233 to R235, R250, R251, R258), what the
strobes START and CLR do in each phase (R230, R231, R237), and what a recorded fault waits for (R259). -/

namespace Sys2Proof.Machine

/-! ### How a command ends -/

/-- Settles O28: a command ends by the fault of a check or by its body. -/
theorem everyCommandEndsDoneOrFault : Obligations.EveryCommandEndsDoneOrFault := by
  unfold Obligations.EveryCommandEndsDoneOrFault
  intro i s
  obtain ⟨c, -, he⟩ | ⟨hc, he⟩ := exec_cases i s
  · exact ⟨_, he, .inr (State.raiseFault_phase _ c), rfl⟩
  · exact ⟨_, he, .inl (bodyOf_phase hc), bodyOf_run _ _ _⟩

/-- The faults a command can raise (R251). -/
def causesOf : Kind → List Cause
  | .estimate _ => []
  | .encode _ => [.descriptorRange]
  | .decode _ => [.descriptorRange, .decodeLength]
  | .getbit => [.bitIndexRange]
  | .setbit => [.bitIndexRange]
  | .fixup => []

theorem mem_causesOf_of_startCheck {k : Kind} {d : Descriptor} {caps : Caps} {c : Cause}
    (h : startCheck k d caps = some c) : c ∈ causesOf k := by
  cases k with
  | estimate p => cases h
  | encode p =>
    obtain ⟨-, ⟨⟩⟩ := Option.ite_none_right_eq_some.mp h
    exact List.mem_singleton_self _
  | decode p =>
    simp only [startCheck] at h
    split at h
    · cases h
      exact List.mem_cons_self
    · obtain ⟨-, ⟨⟩⟩ := Option.ite_none_right_eq_some.mp h
      exact List.mem_cons_of_mem _ (List.mem_singleton_self _)
  | getbit | setbit =>
    obtain ⟨-, ⟨⟩⟩ := Option.ite_none_right_eq_some.mp h
    exact List.mem_singleton_self _
  | fixup => cases h

/-- A command that ends in FAULT has failed a check: its body ends in DONE. -/
theorem exec_fault {i : Instr} {s t : State} (h : exec i s = .next t) (hp : t.phase = .fault) :
    ∃ c ∈ causesOf i.kind, t = faulted s (statusFault c) := by
  obtain ⟨c, hc, he⟩ | ⟨hc, he⟩ := exec_cases i s
  · cases he.symm.trans h
    exact ⟨c, mem_causesOf_of_startCheck hc, State.raiseFault_accept s c⟩
  · cases he.symm.trans h
    cases (bodyOf_phase hc).symm.trans hp

/-- Settles O29: only the checks at START fault, before anything is written or drawn. -/
theorem faultsArePrecise : Obligations.FaultsArePrecise := by
  unfold Obligations.FaultsArePrecise
  intro i s t h hp
  obtain ⟨c, hc, rfl⟩ := exec_fault h hp
  refine ⟨rfl, ?_⟩
  cases hk : i.kind <;> rw [hk] at hc
  case estimate p => cases hc
  case fixup => cases hc
  case encode p =>
    cases List.mem_singleton.mp hc
    exact statusFault_eq .descriptorRange
  case decode p =>
    obtain rfl | rfl := List.mem_pair.mp hc
    · exact .inl (statusFault_eq .descriptorRange)
    · exact .inr (statusFault_eq .decodeLength)
  case getbit | setbit =>
    cases List.mem_singleton.mp hc
    exact statusFault_eq .bitIndexRange

/-! ### CLR and the strobes of CTRL -/

theorem statusIdle_eq : statusIdle = 0x00 := by decide

theorem State.clear_of_idle {s : State} (h : s.phase = .idle) : s.clear = s := by
  rw [State.clear, h]

theorem State.clear_of_ended {s : State} (h : s.phase = .done ∨ s.phase = .fault) :
    s.clear = { s with status := 0x00, result := 0 } := by
  rw [State.clear, statusIdle_eq]
  rcases h with h | h <;> rw [h]

section
variable {v : BitVec 8} (s : State)

theorem strobe_start (h0 : v.getLsbD 0 = true) (h1 : v.getLsbD 1 = false) : strobe v s = start s := by
  simp only [strobe, h0, h1, ite_true, ite_false, Bool.false_eq_true]

theorem strobe_clear_start (h0 : v.getLsbD 0 = true) (h1 : v.getLsbD 1 = true) : strobe v s = start s.clear := by
  simp only [strobe, h0, h1, ite_true]

theorem strobe_clear (h0 : v.getLsbD 0 = false) (h1 : v.getLsbD 1 = true) : strobe v s = .next s.clear := by
  simp only [strobe, h0, h1, ite_true, ite_false, Bool.false_eq_true]

theorem strobe_nothing (h0 : v.getLsbD 0 = false) (h1 : v.getLsbD 1 = false) : strobe v s = .next s := by
  simp only [strobe, h0, h1, ite_false, Bool.false_eq_true]

end

/-- Without CLR a strobe changes nothing in FAULT (R230, R259). -/
theorem strobe_of_fault {v : BitVec 8} {s : State} (hp : s.phase = .fault) (h1 : v.getLsbD 1 = false) :
    strobe v s = .next s := by
  cases h0 : v.getLsbD 0 with
  | false => exact strobe_nothing s h0 h1
  | true => rw [strobe_start s h0 h1, start_of_ignored (.inr hp)]

/-- A strobe looks at bits 1:0 only (R237). -/
theorem strobe_congr {v w : BitVec 8} (h : v.toNat % 4 = w.toNat % 4) (s : State) : strobe v s = strobe w s := by
  have hbit : ∀ k < 2, v.getLsbD k = w.getLsbD k := fun k hk => by
    have hk' := congrArg (Nat.testBit · k) h
    rw [← BitVec.testBit_toNat, ← BitVec.testBit_toNat]
    simpa [Nat.testBit_mod_two_pow (j := 2), hk] using hk'
  rw [strobe, strobe, hbit 0 (by decide), hbit 1 (by decide)]

/-! ### Steps in which the host strobes -/

section
variable {s : State} {v : BitVec 8} {rest : List HostAct} (hs : CtrlNext s v rest)
include hs

theorem step_strobe (hp : s.phase ≠ .busy) : step s = strobe v { s with script := rest } := step_write hp hs

/-- START alone runs the command that CMD holds, from IDLE and DONE (R230, R235). -/
theorem step_start {i : Instr} (h0 : v.getLsbD 0 = true) (h1 : v.getLsbD 1 = false)
    (hp : s.phase = .idle ∨ s.phase = .done) (hd : decode s.desc.cmd = .ok i) :
    step s = exec i { s with script := rest } := by
  have hbusy : s.phase ≠ .busy := by rcases hp with hp | hp <;> simp [hp]
  rw [step_strobe hs hbusy, strobe_start _ h0 h1]
  exact start_of_decode (s := { s with script := rest }) hp hd

/-- CLR and START in one write run the command from every phase but BUSY, since CLR leads to IDLE (R231, R237). -/
theorem step_clear_start {i : Instr} (h0 : v.getLsbD 0 = true) (h1 : v.getLsbD 1 = true) (hp : s.phase ≠ .busy)
    (hd : decode s.desc.cmd = .ok i) : step s = exec i (State.clear { s with script := rest }) := by
  rw [step_strobe hs hp, strobe_clear_start _ h0 h1]
  exact start_of_decode (.inl (State.clear_phase (s := { s with script := rest }) hp)) (by rwa [State.clear_desc])

end

/-- A state made by `withFetchWord` runs the command of its word next, from every phase (log entry 6): the strobe, and the
STATUS it is brought to, are overwritten by the accepted START. -/
theorem step_withFetchWord {s : State} {nbits w : Nat} {i : Instr} (hd : decode (BitVec.ofNat 8 (w % 2 ^ nbits)) = .ok i) :
    step (s.withFetchWord nbits w) = exec i { s with desc := { s.desc with cmd := BitVec.ofNat 8 (w % 2 ^ nbits) } } := by
  have hd' : decode ({ s.desc with cmd := BitVec.ofNat 8 (w % 2 ^ nbits) } : Descriptor).cmd = .ok i := hd
  have h0 : (0x01 : BitVec 8).getLsbD 0 = true := by decide
  have h1 : (0x01 : BitVec 8).getLsbD 1 = false := by decide
  unfold State.withFetchWord
  generalize ({ s.desc with cmd := BitVec.ofNat 8 (w % 2 ^ nbits) } : Descriptor) = d at hd' ⊢
  cases hp : s.phase with
  | idle => exact step_start rfl h0 h1 (.inl hp) hd'
  | done => exact step_start rfl h0 h1 (.inr hp) hd'
  | fault =>
    have hbusy : s.phase ≠ .busy := by simp [hp]
    have hstep := step_clear_start (s := { s with desc := d, script := .wr (.ctrl 0x03) :: s.script }) rfl
      (by decide) (by decide) hbusy hd'
    exact hstep.trans (exec_clear i { s with desc := d })
  | busy =>
    have hstep := step_start (rest := s.script)
      (s := { s with desc := d, status := statusIdle, run := none, script := .wr (.ctrl 0x01) :: s.script })
      rfl h0 h1 (.inl phaseOf_idle) hd'
    exact hstep.trans (exec_congr i { s with desc := d } statusIdle s.result none)

/-- Settles O33: START finds the block in a phase in which it is accepted, IDLE after CLR. -/
theorem startRunsTheDecodedCommand : Obligations.StartRunsTheDecodedCommand := by
  unfold Obligations.StartRunsTheDecodedCommand
  refine ⟨fun s v rest i hs h0 hd => ⟨fun h1 hp => step_start hs h0 h1 hp hd,
    fun h1 hp => step_clear_start hs h0 h1 hp hd⟩, fun s nbits w i hd => ?_⟩
  exact step_withFetchWord (Decoded.instr?_eq_some.mp hd)

/-- Settles O35: the write is a strobe without CLR. -/
theorem startInFaultIsIgnored : Obligations.StartInFaultIsIgnored := by
  unfold Obligations.StartInFaultIsIgnored
  intro s v rest hs _ h1 hp
  rw [step_strobe hs (by simp [hp])]
  exact strobe_of_fault (s := { s with script := rest }) hp h1

/-- Settles O36: the step is CLR alone, in each phase that the host can write in. -/
theorem clrReturnsToIdle : Obligations.ClrReturnsToIdle := by
  unfold Obligations.ClrReturnsToIdle
  intro s v rest hs h0 h1
  refine ⟨fun hp => ?_, fun hp => ?_⟩
  · rw [step_strobe hs (by rcases hp with hp | hp <;> simp [hp]), strobe_clear _ h0 h1,
      State.clear_of_ended (s := { s with script := rest }) hp]
  · rw [step_strobe hs (by simp [hp]), strobe_clear _ h0 h1, State.clear_of_idle (s := { s with script := rest }) hp]

/-- Settles O37: a strobe is decided by bits 1:0, CLR first. -/
theorem combinedStrobeClearsThenStarts : Obligations.CombinedStrobeClearsThenStarts := by
  unfold Obligations.CombinedStrobeClearsThenStarts
  intro s rest v w hp
  refine ⟨fun hs h0 h1 => ?_, fun hs h0 h1 => ?_, fun h => ?_⟩
  · rw [step_strobe hs hp, strobe_clear_start _ h0 h1]
  · rw [step_strobe hs hp, strobe_nothing _ h0 h1]
  · calc step { s with script := .wr (.ctrl v) :: rest }
      _ = strobe v { s with script := rest } := step_strobe (s := { s with script := _ }) rfl hp
      _ = strobe w { s with script := rest } := strobe_congr h _
      _ = step { s with script := .wr (.ctrl w) :: rest } := (step_strobe (s := { s with script := _ }) rfl hp).symm

/-! ### What changes STATUS -/

/-- No action of the host but a strobe and the reset input changes STATUS (R21, R29). -/
theorem hostAct_status {a : HostAct} {s t : State} (h : hostAct a s = .next t) :
    t.status = s.status ∨ (∃ v, a = .wr (.ctrl v) ∧ strobe v s = .next t) ∨ a = .reset := by
  have hload : ∀ {S a vs}, hostLoad S a vs s = .next t → t.status = s.status := fun {S a vs} hl => by
    obtain ⟨-, rfl⟩ := hostLoad_cases hl
    obtain ⟨-, hstatus, -⟩ := s.writeList_fields vs S a
    exact hstatus
  cases a with
  | wr v =>
    obtain ⟨w, rfl, hw⟩ | ⟨d, rfl, -⟩ := writeReg_cases h
    · exact .inr (.inl ⟨w, rfl, hw⟩)
    · exact .inl rfl
  | fill S a n v => exact .inl (hload (hostFill_cases h))
  | load S a vs => exact .inl (hload h)
  | peek S a => obtain ⟨-, rfl⟩ := hostPeek_cases h; exact .inl rfl
  | rd r => cases h; exact .inl rfl
  | rnd ds => cases h; exact .inl rfl
  | draw => cases h; exact .inl rfl
  | reset => exact .inr (.inr rfl)

/-- Settles O38: only strobes and reset change STATUS, and in FAULT a strobe without CLR does not. -/
theorem onlyClearOrResetLeavesFault : Obligations.OnlyClearOrResetLeavesFault := by
  unfold Obligations.OnlyClearOrResetLeavesFault
  intro s t hp h hne
  obtain ⟨hb, -⟩ | ⟨-, rfl | ⟨a, rest, hs, ha⟩⟩ := step_cases h
  · cases hp.symm.trans hb
  · exact absurd rfl hne
  · obtain hstatus | ⟨v, rfl, hv⟩ | rfl := hostAct_status ha
    · exact absurd hstatus hne
    · refine .inl ⟨v, rest, hs, ?_⟩
      by_contra h1
      cases (strobe_of_fault (s := { s with script := rest }) hp (Bool.eq_false_of_not_eq_true h1)).symm.trans hv
      exact hne rfl
    · exact .inr ⟨rest, hs⟩

end Sys2Proof.Machine
end

section
/-! SUPPORT. The exceptions: which descriptors the checks at START reject and by which fault (R233, R253, R255), what a START
does that finds no command in CMD (R252), and the block that no host drives (R268, R281). -/

namespace Sys2Proof.Machine

/-! ### The fault of a check -/

theorem statusFault_injective : Function.Injective statusFault := by
  intro c c' h
  revert h
  cases c <;> cases c' <;> decide

/-- A command ends in the fault `c` exactly when its first failing check raises `c` (R233): a body ends in DONE, and the
cause tells the checks apart. -/
theorem exec_eq_faulted_iff {i : Instr} {s : State} {c : Cause} {st : BitVec 8} (hst : statusFault c = st) :
    exec i s = .next (faulted s st) ↔ startCheck i.kind s.desc s.caps = some c := by
  subst hst
  refine ⟨fun h => ?_, exec_of_check_some⟩
  obtain ⟨c', hc', he⟩ | ⟨hc, he⟩ := exec_cases i s
  · have hs : s.accept.raiseFault c' = faulted s (statusFault c) := Host.Outcome.next.inj (he.symm.trans h)
    rw [hc', statusFault_injective (congrArg State.status hs)]
  · have hs := Host.Outcome.next.inj (he.symm.trans h)
    have hdone : (faulted s (statusFault c)).phase = .done := hs ▸ bodyOf_phase hc
    cases (phaseOf_fault c).symm.trans hdone

theorem startCheck_encode_descriptorRange {p : Pair} {d : Descriptor} {c : Caps} :
    startCheck (.encode p) d c = some .descriptorRange ↔ c.pix < d.pixels * nch p ∨ c.pay < d.plen.toNat :=
  Option.ite_none_right_eq_some.trans (and_iff_left rfl)

/-- The range check of DECODE comes before the one of LEN (R233). -/
theorem startCheck_decode_descriptorRange {p : Pair} {d : Descriptor} {c : Caps} :
    startCheck (.decode p) d c = some .descriptorRange ↔ c.pix < d.pixels * nch p ∨ c.out < d.olen.toNat := by
  rw [startCheck]
  split
  case isTrue h => exact iff_of_true rfl h
  case isFalse h =>
    refine iff_of_false (fun hc => ?_) h
    obtain ⟨-, ⟨⟩⟩ := Option.ite_none_right_eq_some.mp hc

/-- LEN above OLEN is the fault where the range check of DECODE has passed (R255). -/
theorem startCheck_decode_decodeLength {p : Pair} {d : Descriptor} {c : Caps}
    (hpix : d.pixels * nch p ≤ c.pix) (hout : d.olen.toNat ≤ c.out) (hlen : d.olen.toNat < d.len.toNat) :
    startCheck (.decode p) d c = some .decodeLength := by
  rw [startCheck, if_neg (not_or.mpr ⟨hpix.not_gt, hout.not_gt⟩), if_pos hlen]

/-- Settles O26: ENCODE and DECODE end in DescriptorRange exactly when their range check fails; ESTIMATE has no check. -/
theorem descriptorRangeIsCheckedFirst : Obligations.DescriptorRangeIsCheckedFirst := by
  unfold Obligations.DescriptorRangeIsCheckedFirst
  intro p s
  have hst : statusFault .descriptorRange = 0x23 := statusFault_eq _
  rw [exec_eq_faulted_iff hst, exec_eq_faulted_iff hst, kind_encodeOf, kind_decodeOf]
  exact ⟨startCheck_encode_descriptorRange, startCheck_decode_descriptorRange, _, exec_estimateOf p s, rfl⟩

/-- Settles O27: where the descriptor fits, LEN <= OLEN is the only check left. -/
theorem decodeLengthAboveBufferFaults : Obligations.DecodeLengthAboveBufferFaults := by
  unfold Obligations.DecodeLengthAboveBufferFaults
  intro p s hfits
  refine ⟨fun hlen => ?_, fun hlen => ⟨_, exec_decodeOf_of_fits hfits hlen, statusDone_false⟩⟩
  rw [exec_eq_faulted_iff (c := .decodeLength) (statusFault_eq _), kind_decodeOf]
  exact startCheck_decode_decodeLength hfits.1 hfits.2 hlen

/-! ### A START without a command -/

/-- A word without a row in the opcode map decodes to no command (R86, R87). -/
theorem decode_of_no_row {c : BitVec 8} (h : ∀ r ∈ opcodeMap, r.1 ≠ c) : ∃ why, decode c = .illegal why := by
  cases hd : decode c with
  | illegal why => exact ⟨why, rfl⟩
  | ok i =>
    obtain ⟨r, hr, hc⟩ := exists_decode_iff.mp ⟨i, hd⟩
    exact absurd hc (h r hr)

/-- START alone faults on a word that is no command, from IDLE and DONE (R252). -/
theorem step_start_of_no_row {s : State} {v : BitVec 8} {rest : List HostAct} (hs : CtrlNext s v rest)
    (h0 : v.getLsbD 0 = true) (h1 : v.getLsbD 1 = false) (hp : s.phase = .idle ∨ s.phase = .done)
    (hno : ∀ r ∈ opcodeMap, r.1 ≠ s.desc.cmd) : step s = .next (faulted { s with script := rest } 0x13) := by
  have hbusy : s.phase ≠ .busy := by rcases hp with hp | hp <;> simp [hp]
  obtain ⟨why, hd⟩ := decode_of_no_row hno
  rw [step_strobe hs hbusy, strobe_start _ h0 h1, start_of_illegal (s := { s with script := rest }) hp hd,
    State.raiseFault_accept, statusFault_eq]

/-- Settles O34: reset leaves the block in IDLE with the word 0 in CMD, which is no command. -/
theorem illegalCommandWordFaults : Obligations.IllegalCommandWordFaults := by
  unfold Obligations.IllegalCommandWordFaults
  refine ⟨fun s v rest => step_start_of_no_row, fun rest => ?_⟩
  have hno : ∀ r ∈ opcodeMap, r.1 ≠ State.reset.desc.cmd := by decide
  exact step_start_of_no_row (s := { State.reset with script := _ }) rfl (by decide) (by decide) (.inl phaseOf_zero) hno

/-! ### The block without a host action -/

/-- Settles O40: the host has the turn and no action. -/
theorem blockWaitsForTheHost : Obligations.BlockWaitsForTheHost := by
  unfold Obligations.BlockWaitsForTheHost
  intro s hp hs
  rw [step_host hp, hostTurn, hs]

end Sys2Proof.Machine
end
